-- ==== Sys2Proof/Word.lean ====
section
/-! DEFINITION. Bytes, 32-bit words, bit patterns of a stated width, and the register table as plain data. -/

namespace Sys2Proof

/-- A byte (R7). -/
abbrev Byte := BitVec 8

/-- A 32-bit unsigned value, the width of the CRC (R74). -/
abbrev Word := BitVec 32

/-- A bit pattern together with its width in bits: what the block's interface carries for a value (R66) and what a
register holds (R15). -/
structure Pattern where
  width : Nat
  bits : BitVec width
deriving DecidableEq, Repr

/-- The pattern read as an unsigned number. -/
abbrev Pattern.toNat (v : Pattern) : Nat := v.bits.toNat

/-- The 8-bit pattern of a byte. -/
abbrev Pattern.ofByte (b : Byte) : Pattern := ⟨8, b⟩

/-- A register table (R13): entry `i` is the value of the register of ordinal `i`, and `none` is the spec's own "no
value" marker of R15, the state of a register that nothing has written since the table was initialised. -/
abbrev Table := List (Option Pattern)

end Sys2Proof
end

