-- ==== Sys2Proof/Config.lean ====
section
/-! DEFINITION. What an implementation fixes (R5) and the one free value, the environment's answer to a bounded read (R21). -/

namespace Sys2Proof

/-- The encodings of R12. -/
inductive Enc where
  | u8 | u16 | u32 | i8 | i16 | i32 | f32
deriving DecidableEq, Repr

/-- The fifteen command names of R56, the domain of `CMD_CODE`. -/
inductive Command where
  | ping | write | read | eepromWrite | reboot | hardReset | enterBootloader | scanSensors | resetEncoder | syncWrite
  | syncRead | bulkWrite | bulkRead | writeAck | eepromWriteAck
deriving DecidableEq, Repr

/-- Every command name once. -/
def Command.all : List Command :=
  [.ping, .write, .read, .eepromWrite, .reboot, .hardReset, .enterBootloader, .scanSensors, .resetEncoder, .syncWrite,
   .syncRead, .bulkWrite, .bulkRead, .writeAck, .eepromWriteAck]

/-- The parameter `CMD_CODE` of R5 and R57 as data: one byte a command. -/
structure CmdCodes where
  ping : Byte
  write : Byte
  read : Byte
  eepromWrite : Byte
  reboot : Byte
  hardReset : Byte
  enterBootloader : Byte
  scanSensors : Byte
  resetEncoder : Byte
  syncWrite : Byte
  syncRead : Byte
  bulkWrite : Byte
  bulkRead : Byte
  writeAck : Byte
  eepromWriteAck : Byte
deriving DecidableEq, Repr

/-- `CMD_CODE(c)`. -/
def CmdCodes.code (k : CmdCodes) : Command → Byte
  | .ping => k.ping
  | .write => k.write
  | .read => k.read
  | .eepromWrite => k.eepromWrite
  | .reboot => k.reboot
  | .hardReset => k.hardReset
  | .enterBootloader => k.enterBootloader
  | .scanSensors => k.scanSensors
  | .resetEncoder => k.resetEncoder
  | .syncWrite => k.syncWrite
  | .syncRead => k.syncRead
  | .bulkWrite => k.bulkWrite
  | .bulkRead => k.bulkRead
  | .writeAck => k.writeAck
  | .eepromWriteAck => k.eepromWriteAck

/-- `MARKER` (R5, R46). -/
abbrev marker : Byte := 0x55#8

/-- `ENVELOPE`, the size of a frame with an empty payload (R5). -/
abbrev envelope : Nat := 10

/-- `MAX_FRAME` (R5, R49). -/
abbrev maxFrame : Nat := 255

/-- The broadcast or unassigned device ID (R6). -/
abbrev broadcastId : Byte := 255#8

/-- `DEVICE_ID_INDEX` (R5). -/
abbrev deviceIdIndex : Byte := 1#8

/-- The implementation parameters of R5 that are not fixed by the spec, as data (DESIGN CHOICE, log 1).
`REG_COUNT` is the length of `regEnc`. -/
structure Params where
  productId : Byte
  cmdCode : CmdCodes
  regEnc : List Enc
  hwVersionIndex : Byte
  swVersionIndex : Byte
  baudIndex : Byte
  statusInit : Byte
  scanAckLen : Nat
  baud : Nat
  readTimeout : Nat
deriving DecidableEq, Repr

/-- `REG_COUNT`, N. -/
abbrev Params.regCount (p : Params) : Nat := p.regEnc.length

/-- The constraints of R5 on the parameters. -/
abbrev Params.Valid (p : Params) : Prop :=
  (p.regCount ≤ 256 ∧ p.regEnc.take 6 = List.replicate 6 Enc.u8) ∧
  (Command.all.map p.cmdCode.code).Nodup ∧
  (6 ≤ p.hwVersionIndex.toNat ∧ p.regEnc[p.hwVersionIndex.toNat]? = some Enc.u32) ∧
  (6 ≤ p.swVersionIndex.toNat ∧ p.regEnc[p.swVersionIndex.toNat]? = some Enc.u32) ∧
  p.hwVersionIndex ≠ p.swVersionIndex ∧
  (6 ≤ p.baudIndex.toNat ∧ p.baudIndex.toNat < p.regCount) ∧
  (10 ≤ p.scanAckLen ∧ p.scanAckLen ≤ 255) ∧
  0 < p.baud ∧ 0 < p.readTimeout

/-- TV_CMD_CODE, the test vectors' assignment (R57). -/
def CmdCodes.tv : CmdCodes where
  ping := 0x00
  write := 0x01
  read := 0x02
  eepromWrite := 0x03
  reboot := 0x05
  hardReset := 0x06
  enterBootloader := 0x07
  scanSensors := 0x0B
  resetEncoder := 0x0C
  syncWrite := 0x40
  syncRead := 0x41
  bulkWrite := 0x42
  bulkRead := 0x43
  writeAck := 0x81
  eepromWriteAck := 0x83

/-- The test vectors' parameters: the TV column of R5, TV_CMD_CODE (R57) and TV_REGMAP (R13). R5 gives READ_TIMEOUT no
TV value: 1 stands there (DESIGN CHOICE, log 17); no rule reads it. -/
def Params.tv : Params where
  productId := 0xBA
  cmdCode := CmdCodes.tv
  regEnc := [.u8, .u8, .u8, .u8, .u8, .u8, .u32, .u32, .u32, .u16, .i32, .f32, .u8, .i16, .i8]
  hwVersionIndex := 6
  swVersionIndex := 7
  baudIndex := 8
  statusInit := 0x00
  scanAckLen := 10
  baud := 115200
  readTimeout := 1

/-- FREE VALUE (R21, D23; log 5): the bytes the environment sends in answer to the `k`-th bounded read for which no
answer is queued. It has no body: no proof can learn what it is. -/
opaque Config.rxDraw : Nat → List Byte

end Sys2Proof
end

