-- ==== Sys2Proof/Machine/Table.lean ====
section
/-! DEFINITION. The register table's operations (R12-R15, R28): widths, one read and one write of a register, the fresh table. -/

namespace Sys2Proof.Machine

/-- `w(e)`, the byte width of an encoding (R12). -/
def encWidth : Enc → Nat
  | .u8 => 1
  | .u16 => 2
  | .u32 => 4
  | .i8 => 1
  | .i16 => 2
  | .i32 => 4
  | .f32 => 4

/-- `REG_ENC(i)`, or `none` when the ordinal is not defined (R65). -/
def regEnc (p : Params) (i : Byte) : Option Enc := p.regEnc[i.toNat]?

/-- `w(REG_ENC(i))`; 0 for an ordinal that is not defined, which no operation uses (R65 is checked first). -/
def regWidth (p : Params) (i : Byte) : Nat :=
  match regEnc p i with
  | some e => encWidth e
  | none => 0

/-- The bytes that (index, value) pairs of these ordinals take: the sum of 1 + w (R54). -/
def pairBytes (p : Params) (is : List Byte) : Nat := (is.map (fun i => 1 + regWidth p i)).sum

/-- Registers 0 and 2 are fixed (R14). -/
def isFixed (i : Byte) : Bool := i == 0#8 || i == 2#8

/-- `T[i]`: `none` is the no-value marker (R15). -/
def readReg (t : Table) (i : Byte) : Option Pattern :=
  match t[i.toNat]? with
  | some (some v) => some v
  | _ => none

/-- `T[i] <- v`. The fixed registers are guarded by the operations (R67, R101). -/
def writeReg (t : Table) (i : Byte) (v : Pattern) : Table := t.set i.toNat (some v)

/-- A table as initialised for device ID `id` (R28); with 255 it is the placeholder (R151) and the scratch table of a
sync-write (R29). -/
def freshTable (p : Params) (id : Byte) : Table :=
  [some (.ofByte marker), some (.ofByte id), some (.ofByte p.productId), none, none, some (.ofByte p.statusInit)] ++
    List.replicate (p.regCount - 6) none

/-- The scratch table TS of a sync-write (R29). -/
def scratchTable (p : Params) : Table := freshTable p broadcastId

/-- Whether one register's entry has the width of its encoding. -/
def entryOk (e : Enc) : Option Pattern → Bool
  | none => true
  | some v => v.width == 8 * encWidth e

/-- The form every register table has, as a check the host interface runs on a table it is handed: N registers, each value
as wide as its register (R13, R15), the fixed registers at their constants (R14), a value in the device-ID and status
registers (R28). -/
def tableCheck (p : Params) (t : Table) : Bool :=
  t.length == p.regCount && (p.regEnc.zip t).all (fun x => entryOk x.1 x.2) &&
  readReg t 0#8 == some (.ofByte marker) && readReg t 2#8 == some (.ofByte p.productId) &&
  (readReg t 1#8).isSome && (readReg t 5#8).isSome

end Sys2Proof.Machine
end

