-- ==== Sys2Proof/Syntax.lean ====
section
/-! DEFINITION. The commands the block serializes: one constructor per row of spec/opcode_table.json. -/

namespace Sys2Proof

/-- The block's instructions are the commands it serializes (30_encoding.md). Ordinals and device IDs are bytes (R6);
values are bit patterns (R66). -/
inductive Instr where
  /-- PING (R111) -/
  | ping
  /-- WRITE i1, ..., in (R93) -/
  | write (ordinals : List Byte)
  /-- READ i1, ..., in (R95) -/
  | read (ordinals : List Byte)
  /-- EEPROM_WRITE (R114) -/
  | eepromWrite
  /-- REBOOT (R112) -/
  | reboot
  /-- HARD_RESET (R113) -/
  | hardReset
  /-- ENTER_BOOTLOADER (R118) -/
  | enterBootloader
  /-- SCAN_SENSORS (R117) -/
  | scanSensors
  /-- RESET_ENCODER (R116) -/
  | resetEncoder
  /-- SYNC_WRITE i, d1:v1, ..., dk:vk (R96) -/
  | syncWrite (ordinal : Byte) (targets : List (Byte × Pattern))
  /-- SYNC_READ, reserved (R120) -/
  | syncRead
  /-- BULK_WRITE, reserved (R120) -/
  | bulkWrite
  /-- BULK_READ, reserved (R120) -/
  | bulkRead
  /-- WRITE_ACK i1, ..., in (R94) -/
  | writeAck (ordinals : List Byte)
  /-- EEPROM_WRITE_ACK (R115) -/
  | eepromWriteAck
  /-- UPDATE_ID new, a WRITE of the device-ID register (R97) -/
  | updateId (newId : Byte)
deriving DecidableEq, Repr

end Sys2Proof
end

