-- ==== Sys2Proof/Machine/State.lean ====
section
/-! DEFINITION. The block's state as plain data, the outcomes of its operations, the operations of the host, and the state
after reset. -/

namespace Sys2Proof.Machine

/-- PHASE (R19). -/
inductive Phase where
  | idle | frameSent | awaitingAck | applied | rejected
deriving DecidableEq, Repr

/-- The kind of a predicted acknowledgment (R20). -/
inductive AckKind where
  /-- a pure acknowledgment -/
  | noData
  /-- a READ acknowledgment, whose pairs are applied to T -/
  | readData
  /-- a payload returned to the host uninterpreted -/
  | raw
deriving DecidableEq, Repr

/-- An acknowledgment prediction `(len, kind)` (R20, R92). -/
structure AckPrediction where
  len : Nat
  kind : AckKind
deriving DecidableEq, Repr

/-- What the decoder returns (R85): six header bytes as received, and the payload uninterpreted. -/
structure DecodedFrame where
  marker : Byte
  device : Byte
  product : Byte
  size : Byte
  command : Byte
  status : Byte
  payload : List Byte
deriving DecidableEq, Repr

/-- The kinds of `ValidationError` with the offending value each records (R130, R132). -/
inductive Validation where
  | badDeviceId (id : Byte)
  | emptyList
  | indexOutOfRange (i : Byte)
  | readOnly (i : Byte)
  | badValue (i : Byte)
  | frameTooLong (len : Nat)
deriving DecidableEq, Repr

/-- What the host and the transport can do to the block (R10, D3). The first six are the operations of R62; a transaction
may also be split at its two suspension points (R154). -/
inductive HostOp where
  /-- a command as one whole transaction (R153) -/
  | command (i : Instr)
  /-- ATTACH id (R71) -/
  | attach (id : Byte)
  /-- SET i, v (R67) -/
  | set (i : Byte) (v : Pattern)
  /-- GET i (R68) -/
  | get (i : Byte)
  /-- BYTE_WIDTH i (R69) -/
  | byteWidth (i : Byte)
  /-- ENCODING i (R70) -/
  | encoding (i : Byte)
  /-- the host hands the block the table of its next target (R11; log 12) -/
  | handTable (t : Table)
  /-- the host sets the line rate of its own transport (R160; log 11) -/
  | setBaud (b : Nat)
  /-- the first part of a split transaction: validate, build, transmit and latch (R154) -/
  | begin (i : Instr)
  /-- the transport's `sleep` has returned: the settle interval is over (R154, R156) -/
  | settled
  /-- the transport's bounded `read` has returned (R154, R155) -/
  | received
deriving DecidableEq, Repr

/-- The errors and faults of R130 with the information each records. -/
inductive Failure where
  /-- code 1, error: raised by SET, ATTACH and every command build -/
  | validation (v : Validation)
  /-- code 2, error: raised by the receive step (R83) -/
  | lengthMismatch (got expected : Nat)
  /-- code 3, error: raised by the receive step (R84) -/
  | checksumMismatch
  /-- code 4, error: raised by APPLY_ACK (R100) -/
  | payloadMalformed (k : Nat)
  /-- code 5, error: raised by a request of a reserved command (R120) -/
  | unimplemented (c : Command)
  /-- code 6, fault: raised by GET and by the WRITE and WRITE_ACK builds (R137) -/
  | unwrittenRegister (i : Byte)
  /-- code 7, fault: raised by an operation issued while a transaction is in flight (R138) -/
  | busy (op : HostOp)
  /-- code 8, the Device Registry's error, outside the block: raised by no operation (R139) -/
  | unknownDevice (id : Byte)
deriving DecidableEq, Repr

/-- The data of an `Ok` result (R22): nothing, the value of a GET, a byte width (R69), an encoding (R70), or a decoded
frame. -/
inductive Data where
  | empty
  | value (v : Pattern)
  | width (n : Nat)
  | encoding (e : Enc)
  | frame (d : DecodedFrame)
deriving DecidableEq, Repr

/-- RESULT (R22). -/
inductive Result where
  | ok (d : Data)
  | failed (f : Failure)
deriving DecidableEq, Repr

/-- FAULT (R24): clear, or set with the code and information of the fault, which `Failure` holds. -/
inductive FaultMark where
  | clear
  | set (f : Failure)
deriving DecidableEq, Repr

/-- One call the block made on its transport (R155): `write(bytes)`; `sleep` for a number of bit periods at a line rate
(R156); `read(bound)` with the bytes it returned. -/
inductive BusEvent where
  | write (frame : List Byte)
  | sleep (bitPeriods baud : Nat)
  | read (bound : Nat) (got : List Byte)
deriving DecidableEq, Repr

/-- The state: everything the spec gives the block, its parameters, and the model's own record of the host's operations,
the environment's answers and the transport's calls (logs 1, 4, 5, 10). -/
structure State where
  /-- the parameters of R5, changed by no step (log 1) -/
  params : Params
  /-- T (R11) -/
  table : Table
  /-- PHASE (R19) -/
  phase : Phase
  /-- ACK_LATCH (R20) -/
  ackLatch : Option AckPrediction
  /-- RESULT (R22) -/
  result : Result
  /-- FAULT (R24) -/
  faultMark : FaultMark
  /-- the pending settle interval (R26, R156) -/
  settlePending : Bool
  /-- BAUD, the current line rate of the host's transport (R5, R160) -/
  baud : Nat
  /-- the transport's calls, oldest first (model's own, log 10) -/
  bus : List BusEvent
  /-- operations issued and not yet begun, oldest first (model's own, log 4) -/
  pending : List HostOp
  /-- environment answers already decided, next first (model's own, log 5) -/
  answers : List (List Byte)
  /-- how many bounded reads were answered (model's own, log 5) -/
  draws : Nat
deriving DecidableEq, Repr

/-- Reasons the MODEL stops. The block's own errors and faults (R130) are no stops: they are results in a next state. -/
inductive Fault where
  /-- raised by the host operation handTable for a table that is no register table of the product (R13, R14; log 12);
  safe: outside the interface's contract, the model stops -/
  | notATable
  /-- raised by the host operation setBaud for a line rate of 0 (R5 `BAUD > 0`; log 11); safe: the model stops -/
  | zeroBaud
deriving DecidableEq, Repr

/-- Reasons for having no meaning. -/
inductive Refusal where
  /-- raised by `exec` for an instruction not modelled yet (none is left); safe: the model stops -/
  | notModelled (mnemonic : String)
deriving DecidableEq, Repr

/-- The block after reset (R27, R150) with parameters `p`: the placeholder table (R28, R151; log 3), and nothing issued,
answered or transmitted. -/
def State.resetWith (p : Params) : State where
  params := p
  table := freshTable p broadcastId
  phase := .idle
  ackLatch := none
  result := .ok .empty
  faultMark := .clear
  settlePending := false
  baud := p.baud
  bus := []
  pending := []
  answers := []
  draws := 0

/-- The state right after reset, with the test vectors' parameters (R5 column TV; DESIGN CHOICE, log 1). -/
def State.reset : State := State.resetWith Params.tv

end Sys2Proof.Machine
end

