-- ==== Sys2Proof/Machine/Codec.lean ====
section
/-! DEFINITION. The frame codec: little-endian fields (R31), CRC-32/MPEG-2 (R74-R78), ENCODE (R80) and
DECODE_AND_VALIDATE (R82). -/

namespace Sys2Proof.Machine

/-- `le_n(v)`, byte 0 first (R31). -/
def le : Nat → Nat → List Byte
  | 0, _ => []
  | n + 1, v => BitVec.ofNat 8 v :: le n (v / 256)

/-- `from_le(b)` as a number (R31). -/
def leValue : List Byte → Nat
  | [] => 0
  | b :: r => b.toNat + 256 * leValue r

/-- `from_le(b)` as a pattern of 8 bits a byte (R55). -/
def fromLe (b : List Byte) : Pattern := ⟨8 * b.length, BitVec.ofNat (8 * b.length) (leValue b)⟩

/-- One bit of the CRC's shift register (R78; parameters PRESUMED by the spec itself, log 16). -/
def crcBit (c : Word) : Word :=
  if c.msb then (c <<< 1) ^^^ 0x04C11DB7#32 else c <<< 1

/-- `repeat n times` of the bit step (R78). -/
def crcBits : Nat → Word → Word
  | 0, c => c
  | n + 1, c => crcBits n (crcBit c)

/-- One byte of the CRC: most significant bit first (R78). -/
def crcByte (c : Word) (b : Byte) : Word := crcBits 8 (c ^^^ (b.setWidth 32 <<< 24))

/-- `k c`, with `c` brought to a numeral first when the kernel evaluates it: it keeps the evaluation of a long frame's CRC
shallow and means `k c` (`Laws.forced_eq`). -/
def forced {α : Type} (c : Word) (k : Word → α) : α :=
  match c.toNat with
  | 0 => k 0#32
  | n + 1 => k (BitVec.ofNat 32 (n + 1))

/-- The CRC register after the bytes of a list, from `c` (R78). -/
def crcFrom : List Byte → Word → Word
  | [], c => c
  | b :: r, c => forced (crcByte c b) (crcFrom r)

/-- `crc32_mpeg2(b)` (R78). -/
def crc32 (b : List Byte) : Word := crcFrom b 0xFFFFFFFF#32

/-- The bytes of the CRC field over a frame body (R53, R76). -/
def crcField (body : List Byte) : List Byte := le 4 (crc32 body).toNat

/-- A header register's byte, read from the table. A register with no value cannot be read (R15); R80 says this never
happens in an initialised table (log 13). -/
def headerByte (t : Table) (i : Byte) : Except Failure Byte :=
  match readReg t i with
  | some v => .ok (BitVec.ofNat 8 v.toNat)
  | none => .error (.unwrittenRegister i)

/-- The length a frame with this payload has (R49, R80). -/
def frameLen (payload : List Byte) : Nat := 6 + payload.length + 4

/-- `ENCODE(T, c, payload)` (R80). -/
def encodeFrame (p : Params) (t : Table) (c : Command) (payload : List Byte) : Except Failure (List Byte) :=
  if maxFrame < frameLen payload then .error (.validation (.frameTooLong (frameLen payload)))
  else do
    let h0 ← headerByte t 0#8
    let h1 ← headerByte t 1#8
    let h2 ← headerByte t 2#8
    let h5 ← headerByte t 5#8
    let body := [h0, h1, h2, BitVec.ofNat 8 (frameLen payload), p.cmdCode.code c, h5] ++ payload
    return body ++ crcField body

/-- `DECODE_AND_VALIDATE(rx, expected)` (R82): the length check (R83), then the CRC check (R84), no other (R86). -/
def decodeAndValidate (rx : List Byte) (expected : Nat) : Except Failure DecodedFrame :=
  if expected < envelope || rx.length != expected then .error (.lengthMismatch rx.length expected)
  else if leValue (rx.drop (rx.length - 4)) != (crc32 (rx.take (rx.length - 4))).toNat then .error .checksumMismatch
  else .ok
    { marker := rx.getD 0 0#8
      device := rx.getD 1 0#8
      product := rx.getD 2 0#8
      size := rx.getD 3 0#8
      command := rx.getD 4 0#8
      status := rx.getD 5 0#8
      payload := (rx.take (rx.length - 4)).drop 6 }

end Sys2Proof.Machine
end

