-- ==== Sys2Proof/Machine/Flags.lean ====
section
/-! DEFINITION. The block has no flags or condition codes (R23); what stands in their place is the numeric code of each
outcome and its class (R130). -/

namespace Sys2Proof.Machine

/-- The numeric code of an error or fault (R130, D39). -/
def failureCode : Failure → Nat
  | .validation _ => 1
  | .lengthMismatch _ _ => 2
  | .checksumMismatch => 3
  | .payloadMalformed _ => 4
  | .unimplemented _ => 5
  | .unwrittenRegister _ => 6
  | .busy _ => 7
  | .unknownDevice _ => 8

/-- The numeric code of RESULT: 0 is `Ok` (R130). -/
def resultCode : Result → Nat
  | .ok _ => 0
  | .failed f => failureCode f

/-- `UnwrittenRegister` and `Busy` are faults, the others errors (R130). -/
def isFault : Failure → Bool
  | .unwrittenRegister _ => true
  | .busy _ => true
  | _ => false

/-- The host's boolean form of a result: success or failure (R145). -/
def succeeded (r : Result) : Bool := resultCode r == 0

/-- A transaction is in flight: PHASE is FrameSent or AwaitingAck (R138, R157). -/
def inFlight : Phase → Bool
  | .frameSent => true
  | .awaitingAck => true
  | _ => false

end Sys2Proof.Machine
end

