-- ==== Sys2Proof/WellFormed.lean ====
section
/-! DEFINITION. Which commands have a request frame at all, whatever the table holds: the checks of R90, R65, R66, R81 and
R92 that need only the operands and the register map. A command that fails one is still an operation of the block: its
meaning raises the error the spec names. -/

namespace Sys2Proof

/-- The ordinal names a register (R65). -/
def ordinalDefined (p : Params) (i : Byte) : Bool := (Machine.regEnc p i).isSome

/-- The ordinal may be written over the wire (R65, R90). -/
def ordinalWritable (p : Params) (i : Byte) : Bool := ordinalDefined p i && !Machine.isFixed i

/-- A target of a sync-write: a device ID of 0..254 and a pattern of the register's width (R96). -/
def targetOk (p : Params) (i : Byte) (dv : Byte × Pattern) : Bool :=
  dv.1 != broadcastId && dv.2.width == 8 * Machine.regWidth p i

/-- The command has a request frame. -/
def WellFormed (p : Params) : Instr → Bool
  | .ping | .eepromWrite | .reboot | .hardReset | .enterBootloader | .scanSensors | .resetEncoder | .eepromWriteAck => true
  | .write is | .writeAck is =>
    !is.isEmpty && is.all (ordinalWritable p) && decide (envelope + Machine.pairBytes p is ≤ maxFrame)
  | .read is => !is.isEmpty && is.all (ordinalDefined p) && decide (envelope + Machine.pairBytes p is ≤ maxFrame)
  | .syncWrite i ts =>
    ordinalWritable p i && !ts.isEmpty && ts.all (targetOk p i) &&
      decide (11 + ts.length * (1 + Machine.regWidth p i) ≤ maxFrame)
  | .updateId new => new != broadcastId
  | .syncRead | .bulkWrite | .bulkRead => false

end Sys2Proof
end

