-- ==== Sys2Proof/Machine/Operands.lean ====
section
/-! DEFINITION. Operand checks (R65, R66, R90), payload formats (R54, R91), the split of a READ acknowledgment's payload
(R99), its application (R98), and the host's reading of a pattern (R16). -/

namespace Sys2Proof.Machine

/-- `ValidationError(kind, x)`. -/
def invalid {α : Type} (v : Validation) : Except Failure α := .error (.validation v)

/-- `check_index(i)` (R65). -/
def checkIndex (p : Params) (i : Byte) : Except Failure Unit :=
  match regEnc p i with
  | some _ => .ok ()
  | none => invalid (.indexOutOfRange i)

/-- `check_value(i, v)` (R66). -/
def checkValue (p : Params) (i : Byte) (v : Pattern) : Except Failure Unit :=
  if v.width = 8 * regWidth p i then .ok () else invalid (.badValue i)

/-- `require_writable(i)` (R90), also SET's check (R67). -/
def requireWritable (i : Byte) : Except Failure Unit :=
  if isFixed i then invalid (.readOnly i) else .ok ()

/-- A device ID of one device, 0..254 (R6, R90). -/
def checkDeviceId (id : Byte) : Except Failure Unit :=
  if id = broadcastId then invalid (.badDeviceId id) else .ok ()

/-- `require_unicast(T)` (R90). -/
def requireUnicast (t : Table) : Except Failure Unit := do
  let id ← headerByte t 1#8
  checkDeviceId id

/-- `require_nonempty(list)` (R90). -/
def requireNonempty {α : Type} : List α → Except Failure Unit
  | [] => invalid .emptyList
  | _ :: _ => .ok ()

/-- `for k in 1..n: check_index(ik)` (R95). -/
def checkIndices (p : Params) : List Byte → Except Failure Unit
  | [] => .ok ()
  | i :: r => do
    checkIndex p i
    checkIndices p r

/-- `for k in 1..n: check_index(ik); require_writable(ik)` (R93). -/
def checkWritables (p : Params) : List Byte → Except Failure Unit
  | [] => .ok ()
  | i :: r => do
    checkIndex p i
    requireWritable i
    checkWritables p r

/-- `for j in 1..k`: the device ID, then the value, of each target of a sync-write (R96). -/
def checkTargets (p : Params) (i : Byte) : List (Byte × Pattern) → Except Failure Unit
  | [] => .ok ()
  | (d, v) :: r => do
    checkDeviceId d
    checkValue p i v
    checkTargets p i r

/-- `val(i, v)`, the value field of register i (R55). -/
def valueField (p : Params) (i : Byte) (v : Pattern) : List Byte := le (regWidth p i) v.toNat

/-- `pairs_from_T(T, i1..in)` (R91): PAIR_LIST of the table's values, or `UnwrittenRegister` for the first ordinal with no
value. -/
def pairsFromT (p : Params) (t : Table) : List Byte → Except Failure (List Byte)
  | [] => .ok []
  | i :: r =>
    match readReg t i with
    | none => .error (.unwrittenRegister i)
    | some v => do
      let rest ← pairsFromT p t r
      return i :: (valueField p i v ++ rest)

/-- SYNC_LIST after its index byte (R54): each target's device ID and value, all at the width of the one register. -/
def targetFields (p : Params) (i : Byte) : List (Byte × Pattern) → List Byte
  | [] => []
  | (d, v) :: r => d :: (valueField p i v ++ targetFields p i r)

/-- The acknowledgment length of a READ, `A = 10 + sum(1 + w)` (R95). -/
def readAckLen (p : Params) (is : List Byte) : Nat := envelope + pairBytes p is

/-- `parse_pairs(p)` from payload offset `k` (R99), with as many turns as the payload has bytes at most. -/
def parsePairsAt (p : Params) : Nat → Nat → List Byte → Except Failure (List (Byte × Pattern))
  | _, _, [] => .ok []
  | 0, k, _ :: _ => .error (.payloadMalformed k)
  | fuel + 1, k, i :: rest =>
    match regEnc p i with
    | none => .error (.payloadMalformed k)
    | some e =>
      if rest.length < encWidth e then .error (.payloadMalformed k)
      else do
        let more ← parsePairsAt p fuel (k + 1 + encWidth e) (rest.drop (encWidth e))
        return (i, fromLe (rest.take (encWidth e))) :: more

/-- `parse_pairs(p)` (R99). -/
def parsePairs (p : Params) (payload : List Byte) : Except Failure (List (Byte × Pattern)) :=
  parsePairsAt p payload.length 0 payload

/-- The pairs written into the table in payload order, fixed ordinals skipped (R98, R101, R102). -/
def writePairs : Table → List (Byte × Pattern) → Table
  | t, [] => t
  | t, (i, v) :: r => writePairs (if isFixed i then t else writeReg t i v) r

/-- `APPLY_ACK(T, d)`: all of the pairs or none (R98, R100). -/
def applyAck (p : Params) (t : Table) (d : DecodedFrame) : Except Failure Table := do
  let pairs ← parsePairs p d.payload
  return writePairs t pairs

/-- The host-facing number of a pattern (R16, R55): an integer, or the binary32 pattern unchanged. -/
inductive HostNumber where
  | int (z : Int)
  | float32 (v : Pattern)
deriving DecidableEq, Repr

/-- R16's table. The two's-complement and binary32 readings are the spec's general knowledge (log 16); no operation of the
block uses them. -/
def hostNumber (e : Enc) (v : Pattern) : HostNumber :=
  match e with
  | .u8 | .u16 | .u32 => .int v.toNat
  | .i8 | .i16 | .i32 => .int v.bits.toInt
  | .f32 => .float32 v

end Sys2Proof.Machine
end

