-- ==== Sys2Proof/Decode.lean ====
section
/-! DEFINITION. Reading a command from its request frame (R58, R45, R54), total on any bytes and rejecting by name, and the
encoder from the same encoding tables. The block itself decodes no request (R58): this is the reader of its frames. -/

namespace Sys2Proof

open Machine

/-- Why bytes are no request frame. -/
inductive DecodeReject where
  /-- fewer than the 10 bytes of the envelope (R49) -/
  | tooShort
  /-- the last four bytes are not the CRC of the bytes before them (R53) -/
  | badChecksum
  /-- byte 4 is outside the image of CMD_CODE (R58) -/
  | noCommand
  /-- an EMPTY-format command with payload bytes (R54) -/
  | payloadNotEmpty
  /-- a payload that does not split by its command's format (R54) -/
  | badPayload
deriving DecidableEq, Repr

/-- What a request frame carries: the device it addresses, the product and status bytes, the command with its operands,
and the (ordinal, value) pairs of a write, which a command of the block takes from the table (R91). -/
structure Request where
  device : Byte
  product : Byte
  status : Byte
  instr : Instr
  values : List (Byte × Pattern)
deriving DecidableEq, Repr

/-- `CMD_CODE^-1` (R58). -/
def commandOfCode (k : CmdCodes) (b : Byte) : Option Command := Command.all.find? (fun c => k.code c == b)

/-- The targets of a SYNC_LIST after its index byte, each value `n` bytes (R54), with as many turns as there are bytes. -/
def splitTargets (n : Nat) : Nat → List Byte → Option (List (Byte × Pattern))
  | _, [] => some []
  | 0, _ :: _ => none
  | fuel + 1, d :: rest =>
    if rest.length < n then none
    else
      match splitTargets n fuel (rest.drop n) with
      | some more => some ((d, fromLe (rest.take n)) :: more)
      | none => none

/-- A command with the EMPTY format (R54). -/
def emptyRequest (i : Instr) (payload : List Byte) : Except DecodeReject (Instr × List (Byte × Pattern)) :=
  if payload.isEmpty then .ok (i, []) else .error .payloadNotEmpty

/-- A PAIR_LIST payload (R54). -/
def pairRequest (p : Params) (mk : List Byte → Instr) (payload : List Byte) :
    Except DecodeReject (Instr × List (Byte × Pattern)) :=
  match parsePairs p payload with
  | .ok ps => .ok (mk (ps.map Prod.fst), ps)
  | .error _ => .error .badPayload

/-- A SYNC_LIST payload (R54). -/
def syncRequest (p : Params) (payload : List Byte) : Except DecodeReject (Instr × List (Byte × Pattern)) :=
  match payload with
  | [] => .error .badPayload
  | i :: rest =>
    match regEnc p i with
    | none => .error .badPayload
    | some e =>
      match splitTargets (encWidth e) rest.length rest with
      | some ts => .ok (.syncWrite i ts, [])
      | none => .error .badPayload

/-- The command and operands of a payload (R54, R57). A WRITE whose payload is `[1, new]` is UPDATE_ID (the table's row; R97,
log 14). The reserved commands have no payload format: their bytes are not read (R120). -/
def decodePayload (p : Params) (c : Command) (payload : List Byte) :
    Except DecodeReject (Instr × List (Byte × Pattern)) :=
  match c with
  | .ping => emptyRequest .ping payload
  | .eepromWrite => emptyRequest .eepromWrite payload
  | .reboot => emptyRequest .reboot payload
  | .hardReset => emptyRequest .hardReset payload
  | .enterBootloader => emptyRequest .enterBootloader payload
  | .scanSensors => emptyRequest .scanSensors payload
  | .resetEncoder => emptyRequest .resetEncoder payload
  | .eepromWriteAck => emptyRequest .eepromWriteAck payload
  | .write =>
    match payload with
    | [i, new] => if i = deviceIdIndex then .ok (.updateId new, [(i, .ofByte new)]) else pairRequest p .write [i, new]
    | other => pairRequest p .write other
  | .writeAck => pairRequest p .writeAck payload
  | .read => .ok (.read payload, [])
  | .syncWrite => syncRequest p payload
  | .syncRead => .ok (.syncRead, [])
  | .bulkWrite => .ok (.bulkWrite, [])
  | .bulkRead => .ok (.bulkRead, [])

/-- The whole request a frame carries. The decoder of R82 checks length and CRC and nothing else (R86); then byte 4 selects
the command (R58; log 14). The list's own length is taken as the expected one: a list longer than the 255 bytes of R60 is
not refused for its length (DESIGN CHOICE, log 14). -/
def decodeRequest (p : Params) (f : List Byte) : Except DecodeReject Request :=
  match decodeAndValidate f f.length with
  | .error .checksumMismatch => .error .badChecksum
  | .error _ => .error .tooShort
  | .ok d =>
    match commandOfCode p.cmdCode d.command with
    | none => .error .noCommand
    | some c =>
      match decodePayload p c d.payload with
      | .error r => .error r
      | .ok iv => .ok { device := d.device, product := d.product, status := d.status, instr := iv.1, values := iv.2 }

/-- The command a frame carries, or the name of what is wrong with it. -/
def decode (p : Params) (f : List Byte) : Except DecodeReject Instr :=
  match decodeRequest p f with
  | .ok r => .ok r.instr
  | .error e => .error e

/-- The command name whose byte stands in frame byte 4 (R50, R56; UPDATE_ID is a WRITE, R97). -/
def commandOf : Instr → Command
  | .ping => .ping
  | .write _ => .write
  | .read _ => .read
  | .eepromWrite => .eepromWrite
  | .reboot => .reboot
  | .hardReset => .hardReset
  | .enterBootloader => .enterBootloader
  | .scanSensors => .scanSensors
  | .resetEncoder => .resetEncoder
  | .syncWrite _ _ => .syncWrite
  | .syncRead => .syncRead
  | .bulkWrite => .bulkWrite
  | .bulkRead => .bulkRead
  | .writeAck _ => .writeAck
  | .eepromWriteAck => .eepromWriteAck
  | .updateId _ => .write

/-- The table a command's frame is built from: the scratch table for SYNC_WRITE (R29), else the target's. -/
def tableFor (p : Params) (t : Table) : Instr → Table
  | .syncWrite _ _ => scratchTable p
  | _ => t

/-- PAIR_LIST of the table's values (R54), when each has one. -/
def pairList (p : Params) (t : Table) : List Byte → Option (List Byte)
  | [] => some []
  | i :: r =>
    match readReg t i, pairList p t r with
    | some v, some rest => some ([i] ++ le (regWidth p i) v.toNat ++ rest)
    | _, _ => none

/-- SYNC_LIST (R54). -/
def syncList (p : Params) (i : Byte) (ts : List (Byte × Pattern)) : List Byte :=
  [i] ++ ts.flatMap (fun dv => [dv.1] ++ le (regWidth p i) dv.2.toNat)

/-- The request payload of a command by the format table (R54, R57): none for the reserved commands. -/
def payloadOf (p : Params) (t : Table) : Instr → Option (List Byte)
  | .ping | .eepromWrite | .reboot | .hardReset | .enterBootloader | .scanSensors | .resetEncoder | .eepromWriteAck => some []
  | .write is | .writeAck is => pairList p t is
  | .read is => some is
  | .syncWrite i ts => some (syncList p i ts)
  | .updateId new => some [1#8, new]
  | .syncRead | .bulkWrite | .bulkRead => none

/-- A frame body with its CRC field behind it (R45, R53). -/
def withCrc (body : List Byte) : List Byte := body ++ crcField body

/-- The frame layout of R45 around a payload: marker and product from the constants, device ID and status from the table. -/
def layout (p : Params) (t : Table) (c : Command) (payload : List Byte) : Option (List Byte) :=
  match readReg t 1#8, readReg t 5#8 with
  | some id, some status =>
    some (withCrc ([marker, BitVec.ofNat 8 id.toNat, p.productId, BitVec.ofNat 8 (10 + payload.length), p.cmdCode.code c,
      BitVec.ofNat 8 status.toNat] ++ payload))
  | _, _ => none

/-- The request frame of a well-formed command (R45, R54, R57), from the table the values come from; none where no frame
exists: the command is ill-formed, or a register it sends has no value. -/
def encode (p : Params) (t : Table) (i : Instr) : Option (List Byte) :=
  if WellFormed p i then
    match payloadOf p t i with
    | some payload => layout p (tableFor p t i) (commandOf i) payload
    | none => none
  else none

/-- The low `n` bytes of a number, least significant byte first: frame byte `k` is bits `8k+7..8k` of the table's word. -/
def wordBytes (n w : Nat) : List Byte := le n w

/-- A request frame from a word of the opcode table (log 15): its bytes in order, at least the envelope's ten, with the two
computed fields, the size byte (R49) and the CRC (R53), as ENCODE computes them from the rest (R80). A word of more than 255
bytes is no frame of the block (R60): its size byte is the length modulo 256 (DESIGN CHOICE, log 15). -/
def frameOfWord (nbits w : Nat) : List Byte :=
  let n := Nat.max envelope (nbits / 8)
  withCrc (((wordBytes (nbits / 8) w ++ List.replicate n 0#8).take (n - 4)).set 3 (BitVec.ofNat 8 n))

/-- The command read from a word of the opcode table, under given parameters. -/
def decodeWordWith (p : Params) (nbits w : Nat) : Option Instr :=
  match decode p (frameOfWord nbits w) with
  | .ok i => some i
  | .error _ => none

/-- The command read from a word of the opcode table, whose command bytes are TV_CMD_CODE (R57). -/
def decodeTableWord (nbits w : Nat) : Option Instr := decodeWordWith Params.tv nbits w

end Sys2Proof
end

