-- ==== Sys2Proof/Machine/Ops.lean ====
section
/-! DEFINITION. The shared operations: reporting a failure (R131, R142), transmit, settle, bounded read, receive, the whole
transaction (R153), its parts when it is split (R154), and the local operations' frame (R72). -/

namespace Sys2Proof.Machine

/-- What a command's build gives: its frame and its acknowledgment prediction (R92). -/
abbrev Built := List Byte × Option AckPrediction

/-- FAULT after an operation that ended in `f` (R24, R131): a fault sets it, an error leaves it (log 9). -/
def markFault (f : Failure) (m : FaultMark) : FaultMark := if isFault f then .set f else m

/-- Reporting a failure, the block's whole trap entry (R142): RESULT gets the code and information, a fault sets FAULT,
and nothing else changes. -/
def raiseFailure (f : Failure) (s : State) : State :=
  { s with result := .failed f, faultMark := markFault f s.faultMark }

/-- A command's transaction ends in a failure: reported, and PHASE is Rejected (R131). -/
def rejectCommand (f : Failure) (s : State) : State := { raiseFailure f s with phase := .rejected }

/-- `Busy`: the operation is not performed, and only RESULT and FAULT are written (R138). -/
def raiseBusy (op : HostOp) (s : State) : State := raiseFailure (.busy op) s

/-- A command ends well: RESULT is `Ok(data)` and PHASE is Applied (R153). -/
def completeCommand (d : Data) (s : State) : State := { s with result := .ok d, phase := .applied }

/-- `TX(frame); ACK_LATCH <- P; PHASE <- FrameSent`, one atomic step (R153, R158); the settle interval is now due (R156). -/
def transmit (b : Built) (s : State) : State :=
  { s with bus := s.bus ++ [.write b.1], ackLatch := b.2, phase := .frameSent, settlePending := true }

/-- `sleep(10 / BAUD)`: the settle interval has passed (R153, R156). No time is computed (log 19). -/
def settle (s : State) : State := { s with bus := s.bus ++ [.sleep 10 s.baud], settlePending := false }

/-- What the environment sends in answer to the next bounded read (R21): the queued answer, or else the free value. -/
def nextAnswer (s : State) : List Byte :=
  match s.answers with
  | a :: _ => a
  | [] => Config.rxDraw s.draws

/-- The byte list `RX(n)` returns: at most `n` bytes of the answer (R21, R155, R159; log 6). -/
def rxBytes (n : Nat) (s : State) : List Byte := (nextAnswer s).take n

/-- `RX(n)` (R155): one bounded read, its answer used up. -/
def boundedRead (n : Nat) (s : State) : State :=
  { s with bus := s.bus ++ [.read n (rxBytes n s)], answers := s.answers.tail, draws := s.draws + 1 }

/-- The receive step after `RX` returned `rx`, against the latched prediction `a` (R153): decode, clear the latch, apply the
pairs of a READ acknowledgment, report. -/
def receive (a : AckPrediction) (rx : List Byte) (s : State) : State :=
  let u := { s with ackLatch := none }
  match decodeAndValidate rx a.len with
  | .error f => rejectCommand f u
  | .ok d =>
    match a.kind with
    | .readData =>
      match applyAck s.params s.table d with
      | .error f => rejectCommand f u
      | .ok t => completeCommand (.frame d) { u with table := t }
    | .noData => completeCommand (.frame d) u
    | .raw => completeCommand (.frame d) u

/-- `PHASE <- AwaitingAck`, the bounded read of the predicted length, and the receive step (R153). -/
def awaitAck (a : AckPrediction) (s : State) : State :=
  receive a (rxBytes a.len s) (boundedRead a.len { s with phase := .awaitingAck })

/-- The transaction of R153 once its frame is built: transmit, settle, and either complete at once or read the
acknowledgment. -/
def runBuilt (b : Built) (s : State) : State :=
  let u := settle (transmit b s)
  match b.2 with
  | none => completeCommand .empty { u with ackLatch := none }
  | some a => awaitAck a u

/-- TRANSACT (R153) for command `i`, whose build gave `r`: Busy if a transaction is in flight (R138), rejected with no byte
sent if the build failed, else run. -/
def transact (i : Instr) (r : Except Failure Built) (s : State) : State :=
  if inFlight s.phase then raiseBusy (.command i) s
  else
    match r with
    | .error f => rejectCommand f s
    | .ok b => runBuilt b s

/-- The first part of a split transaction (R154): as `transact` up to and with the transmission. -/
def beginTransaction (i : Instr) (r : Except Failure Built) (s : State) : State :=
  if inFlight s.phase then raiseBusy (.command i) s
  else
    match r with
    | .error f => rejectCommand f s
    | .ok b => transmit b s

/-- The transport's `sleep` returned (R154): from FrameSent to Applied when no acknowledgment is predicted, else to
AwaitingAck. When no settle interval is pending the block waits for no sleep, and nothing happens (log 8). -/
def settleDone (s : State) : State :=
  match s.phase, s.settlePending with
  | .frameSent, true =>
    match s.ackLatch with
    | none => completeCommand .empty (settle s)
    | some _ => { settle s with phase := .awaitingAck }
  | _, _ => s

/-- The transport's bounded `read` returned (R154): the length is the latched one (R158). In another phase the block has no
read outstanding, and what devices send is not seen (R144; log 8). -/
def readDone (s : State) : State :=
  match s.phase with
  | .awaitingAck =>
    match s.ackLatch with
    | none => s
    | some a => receive a (rxBytes a.len s) (boundedRead a.len s)
  | _ => s

/-- A local operation (R72): Busy while a transaction is in flight; else it ends in a failure that changes nothing but the
report, or in a new table and a result. PHASE and ACK_LATCH are never touched. -/
def localOp (op : HostOp) (r : Except Failure (Table × Data)) (s : State) : State :=
  if inFlight s.phase then raiseBusy op s
  else
    match r with
    | .error f => raiseFailure f s
    | .ok (t, d) => { s with table := t, result := .ok d }

end Sys2Proof.Machine
end

