-- ==== Sys2Proof/Machine/DataCommands.lean ====
section
/-! DEFINITION. The data commands: the build of each (R93-R97) and its meaning, the transaction of that build (R153). -/

namespace Sys2Proof.Machine

/-- The checks and payload WRITE and WRITE_ACK share (R93, R94). -/
def writePayload (p : Params) (t : Table) (is : List Byte) : Except Failure (List Byte) := do
  requireUnicast t
  requireNonempty is
  checkWritables p is
  pairsFromT p t is

/-- `WRITE(T, i1..in)` (R93). -/
def buildWrite (p : Params) (t : Table) (is : List Byte) : Except Failure Built := do
  let payload ← writePayload p t is
  let frame ← encodeFrame p t .write payload
  return (frame, none)

/-- WRITE (R93). -/
def execWrite (is : List Byte) (s : State) : Host.Outcome State Fault Refusal :=
  .next (transact (.write is) (buildWrite s.params s.table is) s)

/-- `WRITE_ACK(T, i1..in)` (R94). -/
def buildWriteAck (p : Params) (t : Table) (is : List Byte) : Except Failure Built := do
  let payload ← writePayload p t is
  let frame ← encodeFrame p t .writeAck payload
  return (frame, some ⟨envelope, .noData⟩)

/-- WRITE_ACK (R94). -/
def execWriteAck (is : List Byte) (s : State) : Host.Outcome State Fault Refusal :=
  .next (transact (.writeAck is) (buildWriteAck s.params s.table is) s)

/-- `READ(T, i1..in)` (R95): the acknowledgment's length is checked before the frame is built. -/
def buildRead (p : Params) (t : Table) (is : List Byte) : Except Failure Built := do
  requireUnicast t
  requireNonempty is
  checkIndices p is
  if maxFrame < readAckLen p is then invalid (.frameTooLong (readAckLen p is))
  else do
    let frame ← encodeFrame p t .read is
    return (frame, some ⟨readAckLen p is, .readData⟩)

/-- READ (R95), with the application of its acknowledgment (R98). -/
def execRead (is : List Byte) (s : State) : Host.Outcome State Fault Refusal :=
  .next (transact (.read is) (buildRead s.params s.table is) s)

/-- `SYNC_WRITE(i, (d1,v1)..(dk,vk))` (R96): built on a fresh scratch table, so the table of no device is read. -/
def buildSyncWrite (p : Params) (i : Byte) (ts : List (Byte × Pattern)) : Except Failure Built := do
  checkIndex p i
  requireWritable i
  requireNonempty ts
  checkTargets p i ts
  let frame ← encodeFrame p (scratchTable p) .syncWrite (i :: targetFields p i ts)
  return (frame, none)

/-- SYNC_WRITE (R96). -/
def execSyncWrite (i : Byte) (ts : List (Byte × Pattern)) (s : State) : Host.Outcome State Fault Refusal :=
  .next (transact (.syncWrite i ts) (buildSyncWrite s.params i ts) s)

/-- `UPDATE_ID(T, new)` (R97): a WRITE frame to the current ID that carries the new one. -/
def buildUpdateId (p : Params) (t : Table) (new : Byte) : Except Failure Built := do
  requireUnicast t
  checkDeviceId new
  let frame ← encodeFrame p t .write [deviceIdIndex, new]
  return (frame, none)

/-- UPDATE_ID (R97). -/
def execUpdateId (new : Byte) (s : State) : Host.Outcome State Fault Refusal :=
  .next (transact (.updateId new) (buildUpdateId s.params s.table new) s)

end Sys2Proof.Machine
end

