-- ==== Sys2Proof/Machine/MaintenanceCommands.lean ====
section
/-! DEFINITION. The eight maintenance commands (R110-R118): empty payload, one build, a prediction each. -/

namespace Sys2Proof.Machine

/-- `MAINT(T, c, P)` (R110). -/
def buildMaint (p : Params) (t : Table) (c : Command) (a : Option AckPrediction) : Except Failure Built := do
  requireUnicast t
  let frame ← encodeFrame p t c []
  return (frame, a)

/-- The prediction of a pure 10-byte acknowledgment (R57). -/
abbrev pureAck : Option AckPrediction := some ⟨envelope, .noData⟩

/-- `MAINT(T, PING, (10, NoData))` (R111). -/
def buildPing (p : Params) (t : Table) : Except Failure Built := buildMaint p t .ping pureAck

/-- PING (R111). -/
def execPing (s : State) : Host.Outcome State Fault Refusal :=
  .next (transact .ping (buildPing s.params s.table) s)

/-- `MAINT(T, REBOOT, none)` (R112). -/
def buildReboot (p : Params) (t : Table) : Except Failure Built := buildMaint p t .reboot none

/-- REBOOT (R112). -/
def execReboot (s : State) : Host.Outcome State Fault Refusal :=
  .next (transact .reboot (buildReboot s.params s.table) s)

/-- `MAINT(T, HARD_RESET, none)` (R113). -/
def buildHardReset (p : Params) (t : Table) : Except Failure Built := buildMaint p t .hardReset none

/-- HARD_RESET (R113): the mirror keeps its values. -/
def execHardReset (s : State) : Host.Outcome State Fault Refusal :=
  .next (transact .hardReset (buildHardReset s.params s.table) s)

/-- `MAINT(T, EEPROM_WRITE, (10, NoData))` (R114; 90_conflicts.md C3). -/
def buildEepromWrite (p : Params) (t : Table) : Except Failure Built := buildMaint p t .eepromWrite pureAck

/-- EEPROM_WRITE (R114). -/
def execEepromWrite (s : State) : Host.Outcome State Fault Refusal :=
  .next (transact .eepromWrite (buildEepromWrite s.params s.table) s)

/-- `MAINT(T, EEPROM_WRITE_ACK, (10, NoData))` (R115). -/
def buildEepromWriteAck (p : Params) (t : Table) : Except Failure Built := buildMaint p t .eepromWriteAck pureAck

/-- EEPROM_WRITE_ACK (R115). -/
def execEepromWriteAck (s : State) : Host.Outcome State Fault Refusal :=
  .next (transact .eepromWriteAck (buildEepromWriteAck s.params s.table) s)

/-- `MAINT(T, RESET_ENCODER, (10, NoData))` (R116). -/
def buildResetEncoder (p : Params) (t : Table) : Except Failure Built := buildMaint p t .resetEncoder pureAck

/-- RESET_ENCODER (R116). -/
def execResetEncoder (s : State) : Host.Outcome State Fault Refusal :=
  .next (transact .resetEncoder (buildResetEncoder s.params s.table) s)

/-- `MAINT(T, SCAN_SENSORS, (SCAN_ACK_LEN, Raw))` (R117). -/
def buildScanSensors (p : Params) (t : Table) : Except Failure Built :=
  buildMaint p t .scanSensors (some ⟨p.scanAckLen, .raw⟩)

/-- SCAN_SENSORS (R117): the payload is returned uninterpreted. -/
def execScanSensors (s : State) : Host.Outcome State Fault Refusal :=
  .next (transact .scanSensors (buildScanSensors s.params s.table) s)

/-- `MAINT(T, ENTER_BOOTLOADER, none)` (R118). -/
def buildEnterBootloader (p : Params) (t : Table) : Except Failure Built := buildMaint p t .enterBootloader none

/-- ENTER_BOOTLOADER (R118). -/
def execEnterBootloader (s : State) : Host.Outcome State Fault Refusal :=
  .next (transact .enterBootloader (buildEnterBootloader s.params s.table) s)

end Sys2Proof.Machine
end

