-- ==== Sys2Proof/Machine/ReservedCommands.lean ====
section
/-! DEFINITION. The three reserved commands (R120): a request raises `Unimplemented(c)`, builds no frame and sends no byte. -/

namespace Sys2Proof.Machine

/-- SYNC_READ (R120). -/
def buildSyncRead : Except Failure Built := .error (.unimplemented .syncRead)

/-- SYNC_READ (R120): the transaction ends Rejected with `Unimplemented`. -/
def execSyncRead (s : State) : Host.Outcome State Fault Refusal := .next (transact .syncRead buildSyncRead s)

/-- BULK_WRITE (R120). -/
def buildBulkWrite : Except Failure Built := .error (.unimplemented .bulkWrite)

/-- BULK_WRITE (R120): the transaction ends Rejected with `Unimplemented`. -/
def execBulkWrite (s : State) : Host.Outcome State Fault Refusal := .next (transact .bulkWrite buildBulkWrite s)

/-- BULK_READ (R120). -/
def buildBulkRead : Except Failure Built := .error (.unimplemented .bulkRead)

/-- BULK_READ (R120): the transaction ends Rejected with `Unimplemented`. -/
def execBulkRead (s : State) : Host.Outcome State Fault Refusal := .next (transact .bulkRead buildBulkRead s)

end Sys2Proof.Machine
end

