-- ==== Sys2Proof/Machine/Dispatch.lean ====
section
/-! DEFINITION. One arm per command: the meaning each constructor of Instr has. -/

namespace Sys2Proof.Machine

/-- The effect of a command issued by the host: one whole transaction (R153). -/
def exec (i : Instr) (s : State) : Host.Outcome State Fault Refusal :=
  match i with
  | .ping => Sys2Proof.Machine.execPing s
  | .write ordinals => Sys2Proof.Machine.execWrite ordinals s
  | .read ordinals => Sys2Proof.Machine.execRead ordinals s
  | .eepromWrite => Sys2Proof.Machine.execEepromWrite s
  | .reboot => Sys2Proof.Machine.execReboot s
  | .hardReset => Sys2Proof.Machine.execHardReset s
  | .enterBootloader => Sys2Proof.Machine.execEnterBootloader s
  | .scanSensors => Sys2Proof.Machine.execScanSensors s
  | .resetEncoder => Sys2Proof.Machine.execResetEncoder s
  | .syncWrite ordinal targets => Sys2Proof.Machine.execSyncWrite ordinal targets s
  | .syncRead => Sys2Proof.Machine.execSyncRead s
  | .bulkWrite => Sys2Proof.Machine.execBulkWrite s
  | .bulkRead => Sys2Proof.Machine.execBulkRead s
  | .writeAck ordinals => Sys2Proof.Machine.execWriteAck ordinals s
  | .eepromWriteAck => Sys2Proof.Machine.execEepromWriteAck s
  | .updateId newId => Sys2Proof.Machine.execUpdateId newId s

end Sys2Proof.Machine
end

