-- ==== Sys2Proof/Machine/HostOps.lean ====
section
/-! DEFINITION. The operations of the host interface: the register table's operations (R67-R71), the table the host hands
over (R11), its line rate (R160), the parts of a split transaction (R154), and one operation's performance. -/

namespace Sys2Proof.Machine

/-- `SET(i, v)` (R67). -/
def setResult (p : Params) (t : Table) (i : Byte) (v : Pattern) : Except Failure (Table × Data) := do
  checkIndex p i
  requireWritable i
  checkValue p i v
  return (writeReg t i v, .empty)

/-- SET i, v (R67). -/
def opSet (i : Byte) (v : Pattern) (s : State) : State := localOp (.set i v) (setResult s.params s.table i v) s

/-- `GET(i)` (R68): a register with no value cannot be read (R15, R137). -/
def getResult (p : Params) (t : Table) (i : Byte) : Except Failure (Table × Data) := do
  checkIndex p i
  match readReg t i with
  | some v => return (t, .value v)
  | none => .error (.unwrittenRegister i)

/-- GET i (R68). -/
def opGet (i : Byte) (s : State) : State := localOp (.get i) (getResult s.params s.table i) s

/-- `BYTE_WIDTH(i)` (R69): from the register map alone. -/
def byteWidthResult (p : Params) (t : Table) (i : Byte) : Except Failure (Table × Data) := do
  checkIndex p i
  return (t, .width (regWidth p i))

/-- BYTE_WIDTH i (R69). -/
def opByteWidth (i : Byte) (s : State) : State := localOp (.byteWidth i) (byteWidthResult s.params s.table i) s

/-- `ENCODING(i)` (R70). -/
def encodingResult (p : Params) (t : Table) (i : Byte) : Except Failure (Table × Data) :=
  match regEnc p i with
  | some e => .ok (t, .encoding e)
  | none => invalid (.indexOutOfRange i)

/-- ENCODING i (R70). -/
def opEncoding (i : Byte) (s : State) : State := localOp (.encoding i) (encodingResult s.params s.table i) s

/-- `ATTACH(id)` (R71). -/
def attachResult (p : Params) (id : Byte) : Except Failure (Table × Data) := do
  checkDeviceId id
  return (freshTable p id, .empty)

/-- ATTACH id (R71). -/
def opAttach (id : Byte) (s : State) : State := localOp (.attach id) (attachResult s.params id) s

/-- The host hands the block the table of its next target (R11), between transactions only (R35, R138; log 12). Handing a
table is no operation of R62: RESULT stays. What is no register table stops the model. -/
def opHandTable (t : Table) (s : State) : Host.Outcome State Fault Refusal :=
  if inFlight s.phase then .next (raiseBusy (.handTable t) s)
  else if tableCheck s.params t then .next { s with table := t }
  else .fault .notATable

/-- The host sets the line rate of its own transport (R160, R24); later settle intervals use it (R156; log 11). -/
def opSetBaud (b : Nat) (s : State) : Host.Outcome State Fault Refusal :=
  if b = 0 then .fault .zeroBaud else .next { s with baud := b }

/-- The build function of a command (R153 `BUILD`). -/
def build (p : Params) (t : Table) : Instr → Except Failure Built
  | .ping => buildPing p t
  | .write is => buildWrite p t is
  | .read is => buildRead p t is
  | .eepromWrite => buildEepromWrite p t
  | .reboot => buildReboot p t
  | .hardReset => buildHardReset p t
  | .enterBootloader => buildEnterBootloader p t
  | .scanSensors => buildScanSensors p t
  | .resetEncoder => buildResetEncoder p t
  | .syncWrite i ts => buildSyncWrite p i ts
  | .syncRead => buildSyncRead
  | .bulkWrite => buildBulkWrite
  | .bulkRead => buildBulkRead
  | .writeAck is => buildWriteAck p t is
  | .eepromWriteAck => buildEepromWriteAck p t
  | .updateId new => buildUpdateId p t new

/-- The first part of a split transaction of command `i` (R154). -/
def opBegin (i : Instr) (s : State) : State := beginTransaction i (build s.params s.table i) s

/-- One operation of the host, or one return of the transport, performed as one atomic step (R10). -/
def execOp (op : HostOp) (s : State) : Host.Outcome State Fault Refusal :=
  match op with
  | .command i => exec i s
  | .attach id => .next (opAttach id s)
  | .set i v => .next (opSet i v s)
  | .get i => .next (opGet i s)
  | .byteWidth i => .next (opByteWidth i s)
  | .encoding i => .next (opEncoding i s)
  | .handTable t => opHandTable t s
  | .setBaud b => opSetBaud b s
  | .begin i => .next (opBegin i s)
  | .settled => .next (settleDone s)
  | .received => .next (readDone s)

/-- The next operation the host has issued is taken and performed; with none issued the block waits, unchanged (R18; log 4). -/
def stepPending (s : State) : Host.Outcome State Fault Refusal :=
  match s.pending with
  | [] => .next s
  | op :: rest => execOp op { s with pending := rest }

end Sys2Proof.Machine
end

