-- ==== Sys2Proof/Machine/Step.lean ====
section
/-! DEFINITION. The block's step, and the placing of one command where the next step takes it. -/

namespace Sys2Proof.Machine

/-- One step of the machine: the host's next operation (R10, R18). -/
def step (s : State) : Host.Outcome State Fault Refusal := stepPending s

/-- The state in which the host has issued, as its next operation, the command that the table's word encodes (log 15). A word
that selects no command (R58) issues nothing. -/
def State.withFetchWord (s : State) (nbits w : Nat) : State :=
  match decodeWordWith s.params nbits w with
  | some i => { s with pending := .command i :: s.pending }
  | none => s

end Sys2Proof.Machine
end

