-- ==== Sys2Proof/Machine/HostCalls.lean ====
section
/-! DEFINITION. The host's pseudo-operations and their expansions into operations (R63, R104, R105, R160). -/

namespace Sys2Proof.Machine

/-- The host-facing operations of the source (R63). -/
inductive HostCall where
  /-- `set_variables(pairs)`, with or without acknowledgment -/
  | setVariables (pairs : List (Byte × Pattern)) (ack : Bool)
  /-- `get_variables(i1..in)` -/
  | getVariables (ordinals : List Byte)
  /-- `set_variables_sync(i, [(d,v)])` -/
  | setVariablesSync (ordinal : Byte) (targets : List (Byte × Pattern))
  /-- `update_device_id(new)` -/
  | updateDeviceId (newId : Byte)
  /-- `update_driver_baudrate(b)`: the register pattern that stands for `b`, and `b` itself -/
  | updateDriverBaudrate (pattern : Pattern) (b : Nat)
  | ping
  | reboot
  | factoryReset
  | persist
  | enterBootloader
  | resetEncoder
  | discoverSensors
deriving DecidableEq, Repr

/-- The expansion table of R63. The GETs of `get_variables` are issued only if the READ ended Applied (R105,
`callGetVariables`); the last operation of a baud-rate change is issued only after the device has rebooted (R160). That the
later operations of a call are issued also when an earlier one failed (the WRITE after a failed SET) is the model's choice
(DESIGN CHOICE, log 20). -/
def expandCall (p : Params) : HostCall → List HostOp
  | .setVariables pairs ack =>
    pairs.map (fun x => .set x.1 x.2) ++
      [.command (if ack then .writeAck (pairs.map Prod.fst) else .write (pairs.map Prod.fst))]
  | .getVariables is => .command (.read is) :: is.map .get
  | .setVariablesSync i ts => [.command (.syncWrite i ts)]
  | .updateDeviceId new => [.command (.updateId new)]
  | .updateDriverBaudrate v b =>
    [.set p.baudIndex v, .command (.write [p.baudIndex]), .command .eepromWrite, .command .reboot, .setBaud b]
  | .ping => [.command .ping]
  | .reboot => [.command .reboot]
  | .factoryReset => [.command .hardReset]
  | .persist => [.command .eepromWrite]
  | .enterBootloader => [.command .enterBootloader]
  | .resetEncoder => [.command .resetEncoder]
  | .discoverSensors => [.command .scanSensors]

/-- Operations performed one after another (R40), stopping only where the model stops. An operation that ends in an error or
fault of the block does not keep the next one from being issued, and the next one's RESULT replaces its RESULT: R63 and R104
leave open whether the host goes on (DESIGN CHOICE, log 20). -/
def execOps : List HostOp → State → Host.Outcome State Fault Refusal
  | [], s => .next s
  | op :: rest, s =>
    match execOp op s with
    | .next t => execOps rest t
    | .fault f => .fault f
    | .refused r => .refused r

/-- The GETs of `get_variables`: what each of them returned, in order, and the state after the last (R105). A GET that fails
puts its own failure in its place and the next one is made (DESIGN CHOICE, log 21). -/
def getEach : List Byte → State → List Result × State
  | [], s => ([], s)
  | i :: r, s => ((opGet i s).result :: (getEach r (opGet i s)).1, (getEach r (opGet i s)).2)

/-- `get_variables` with the host's control flow (R105): the READ, then the GETs only if it ended Applied. It returns what the
GETs returned, one result an ordinal; `none` is the absent result. -/
def callGetVariables (is : List Byte) (s : State) : Host.Outcome (Option (List Result) × State) Fault Refusal :=
  match execOp (.command (.read is)) s with
  | .next t => if t.phase = .applied then .next (some (getEach is t).1, (getEach is t).2) else .next (none, t)
  | .fault f => .fault f
  | .refused r => .refused r

end Sys2Proof.Machine
end

