-- ==== Sys2Proof/Safety.lean ====
section
/-! DEFINITION. The terms claims are stated in: the invariant of the block's states, the condition under which the host may
issue an operation, and the outcomes of the spec's rules written out on states, apart from the machine's own operations. -/

namespace Sys2Proof.Spec

open Machine

/-- The form of every register table: N registers (R13), each value as wide as its register (R15), the fixed registers at
their constants (R14), a value in the device-ID and status registers (R28). -/
abbrev TableOk (p : Params) (t : Table) : Prop :=
  t.length = p.regCount ∧
  (∀ (i : Byte) (v : Pattern), readReg t i = some v → v.width = 8 * regWidth p i) ∧
  readReg t 0#8 = some ⟨8, 0x55#8⟩ ∧
  readReg t 2#8 = some ⟨8, p.productId⟩ ∧
  (readReg t 1#8).isSome = true ∧
  (readReg t 5#8).isSome = true

/-- PHASE, ACK_LATCH and the pending settle interval agree (R153, R154, R158): outside a transaction nothing is latched and
nothing pends; after transmission the settle interval pends; while an acknowledgment is awaited its prediction is latched. -/
def LatchOk (s : State) : Prop :=
  match s.phase with
  | .frameSent => s.settlePending = true
  | .awaitingAck => s.settlePending = false ∧ s.ackLatch.isSome = true
  | .idle | .applied | .rejected => s.settlePending = false ∧ s.ackLatch = none

/-- The invariant: parameters as R5 requires, T a register table, a positive line rate (R5), the sequencing state in
agreement, a latched length of 10..255 (R20), FAULT holding only a fault's code (R24, R130), and the registry's error in no
result (R139). -/
structure BlockInv (s : State) : Prop where
  params : s.params.Valid
  table : TableOk s.params s.table
  baud : 0 < s.baud
  latch : LatchOk s
  latchLen : ∀ a, s.ackLatch = some a → 10 ≤ a.len ∧ a.len ≤ 255
  mark : ∀ f, s.faultMark = .set f → failureCode f = 6 ∨ failureCode f = 7
  result : ∀ id, s.result ≠ .failed (.unknownDevice id)

/-- No transaction is in flight: the host may issue an operation (R72, R157). -/
abbrev Ready (s : State) : Prop := s.phase ≠ .frameSent ∧ s.phase ≠ .awaitingAck

/-- A safe run's state: the invariant holds and FAULT is clear (R24: a claim about a program takes it as a premise). -/
def Safe (s : State) : Prop := BlockInv s ∧ s.faultMark = .clear

/-- The number in register `i`, 0 where it has no value. -/
def regNat (t : Table) (i : Byte) : Nat :=
  match readReg t i with
  | some v => v.toNat
  | none => 0

/-- The byte in register `i`, for the header registers. -/
def regByte (t : Table) (i : Byte) : Byte := BitVec.ofNat 8 (regNat t i)

/-- The ordinal names no register, or names a fixed one: the first check of a write command it fails (R140). -/
def writeProblem (p : Params) (i : Byte) : Option Failure :=
  if p.regCount ≤ i.toNat then some (.validation (.indexOutOfRange i))
  else if i = 0#8 ∨ i = 2#8 then some (.validation (.readOnly i))
  else none

/-- The ordinal names no register (R65). -/
def readProblem (p : Params) (i : Byte) : Option Failure :=
  if p.regCount ≤ i.toNat then some (.validation (.indexOutOfRange i)) else none

/-- The first check a sync-write's target fails (R140). -/
def targetProblem (p : Params) (i : Byte) (dv : Byte × Pattern) : Option Failure :=
  if dv.1 = 255#8 then some (.validation (.badDeviceId 255#8))
  else if dv.2.width ≠ 8 * regWidth p i then some (.validation (.badValue i))
  else none

/-- The frame of R45 with this payload: marker, T[1], PRODUCT_ID, length, command byte, T[5], payload, and the CRC of all
of it, least significant byte first. -/
def frameFor (p : Params) (t : Table) (c : Command) (payload : List Byte) : List Byte :=
  let body := [0x55#8, regByte t 1#8, p.productId, BitVec.ofNat 8 (10 + payload.length), p.cmdCode.code c, regByte t 5#8] ++
    payload
  body ++ le 4 (crc32 body).toNat

/-- PAIR_LIST of the ordinals with the table's values (R54, R91). -/
def pairsOf (p : Params) (t : Table) (is : List Byte) : List Byte :=
  is.flatMap (fun i => i :: le (regWidth p i) (regNat t i))

/-- SYNC_LIST (R54). -/
def syncOf (p : Params) (i : Byte) (ts : List (Byte × Pattern)) : List Byte :=
  i :: ts.flatMap (fun dv => dv.1 :: le (regWidth p i) dv.2.toNat)

/-- The number of bytes (index, value) pairs of these ordinals take (R54). -/
def pairsLen (p : Params) (is : List Byte) : Nat := (is.map (fun i => 1 + regWidth p i)).sum

/-- An operation that ends in failure `f` (R131, R142): RESULT gets it, FAULT too when it is a fault (R130 codes 6 and 7), and
nothing else changes. -/
def failed (f : Failure) (s : State) : State :=
  { s with
    result := .failed f
    faultMark := if failureCode f = 6 ∨ failureCode f = 7 then .set f else s.faultMark }

/-- A command that ends in failure `f`: also PHASE is Rejected (R131). -/
def rejected (f : Failure) (s : State) : State := { failed f s with phase := .rejected }

/-- A transaction without acknowledgment that has ended (R153): one `write`, the settle interval, `Ok(empty)`, Applied. -/
def sentOnly (frame : List Byte) (s : State) : State :=
  { s with
    bus := s.bus ++ [.write frame, .sleep 10 s.baud]
    ackLatch := none
    settlePending := false
    result := .ok .empty
    phase := .applied }

/-- The bytes the bounded read of `n` returns from what the environment sends (R21, R155). -/
def answer (n : Nat) (s : State) : List Byte := (nextAnswer s).take n

/-- After the bounded read of a transaction (R153): one `write`, the settle interval, one `read`, the latch used up. -/
def afterRead (frame : List Byte) (n : Nat) (s : State) : State :=
  { s with
    bus := s.bus ++ [.write frame, .sleep 10 s.baud, .read n (answer n s)]
    ackLatch := none
    settlePending := false
    answers := s.answers.tail
    draws := s.draws + 1 }

/-- The last four bytes, read little-endian, are the CRC of the bytes before them (R84). -/
abbrev CrcMatches (rx : List Byte) : Prop :=
  leValue (rx.drop (rx.length - 4)) = (crc32 (rx.take (rx.length - 4))).toNat

/-- The decoded frame of R85. -/
def frameOf (rx : List Byte) : DecodedFrame where
  marker := rx.getD 0 0
  device := rx.getD 1 0
  product := rx.getD 2 0
  size := rx.getD 3 0
  command := rx.getD 4 0
  status := rx.getD 5 0
  payload := (rx.drop 6).take (rx.length - 10)

/-- A command that ends well with a decoded frame: `Ok(d)`, Applied (R153). -/
def acknowledged (d : DecodedFrame) (s : State) : State := { s with result := .ok (.frame d), phase := .applied }

/-- The end of a transaction that predicted `n` bytes (R153, R141): the length, then the CRC, then `apply` on the decoded
frame. -/
def endsWith (frame : List Byte) (n : Nat) (apply : DecodedFrame → State → State) (s : State) : State :=
  let rx := answer n s
  let u := afterRead frame n s
  if rx.length ≠ n then rejected (.lengthMismatch rx.length n) u
  else if ¬ CrcMatches rx then rejected .checksumMismatch u
  else apply (frameOf rx) u

/-- The pairs written into the table in order, fixed ordinals skipped (R98, R101). -/
def written (t : Table) (ps : List (Byte × Pattern)) : Table :=
  ps.foldl (fun t iv => if iv.1 = 0#8 ∨ iv.1 = 2#8 then t else t.set iv.1.toNat (some iv.2)) t

/-- APPLY_ACK at the end of a READ (R98): all pairs, or none and a failure. -/
def applyPairs (d : DecodedFrame) (s : State) : State :=
  match parsePairs s.params d.payload with
  | .error f => rejected f s
  | .ok ps => { s with table := written s.table ps, result := .ok (.frame d), phase := .applied }

/-- The acknowledgment prediction of each command (R57, R92). -/
def prediction (p : Params) : Instr → Option AckPrediction
  | .ping | .eepromWrite | .eepromWriteAck | .resetEncoder | .writeAck _ => some ⟨10, .noData⟩
  | .read is => some ⟨10 + pairsLen p is, .readData⟩
  | .scanSensors => some ⟨p.scanAckLen, .raw⟩
  | .write _ | .syncWrite _ _ | .updateId _ | .reboot | .hardReset | .enterBootloader => none
  | .syncRead | .bulkWrite | .bulkRead => none

/-- Commands whose frame goes to one device: all but SYNC_WRITE, and the reserved ones, which have no frame (R90, R120). -/
def isUnicast : Instr → Bool
  | .syncWrite _ _ | .syncRead | .bulkWrite | .bulkRead => false
  | _ => true

/-- The operations of R138: a command, SET, GET, BYTE_WIDTH, ENCODING or ATTACH. -/
def isOperation : HostOp → Bool
  | .command _ | .attach _ | .set _ _ | .get _ | .byteWidth _ | .encoding _ => true
  | .handTable _ | .setBaud _ | .begin _ | .settled | .received => false

/-- A command operation (R153), as against a local one (R72). -/
def isCommand : HostOp → Bool
  | .command _ => true
  | _ => false

/-- The (ordinal, value) pairs a command's frame carries. -/
def sentValues (t : Table) : Instr → List (Byte × Pattern)
  | .write is | .writeAck is => is.filterMap (fun i => (readReg t i).map (fun v => (i, v)))
  | .updateId new => [(1#8, ⟨8, new⟩)]
  | _ => []

end Sys2Proof.Spec
end

