-- ==== Sys2Proof/Certificates/Slice0/Obligations.lean ====
section
/-! DEFINITION. The statements for the provers, from the numbered rules of spec/. -/

open Sys2Proof Sys2Proof.Machine Sys2Proof.Spec

/-! ## The codec -/

/-- R78 (parameters: the spec's general knowledge, log 16): the CRC register starts at all ones; a byte enters most
significant bit first, and eight times the register shifts left and, when bit 31 was 1, is combined with 0x04C11DB7. -/
def Obligations.CrcIsMpeg2Register : Prop :=
  crc32 [] = 0xFFFFFFFF#32 ∧
  ∀ (b : List Byte) (x : Byte),
    crc32 (b ++ [x]) =
      (fun c : Word => if c.getLsbD 31 then (c <<< 1) ^^^ 0x04C11DB7#32 else c <<< 1)^[8]
        (crc32 b ^^^ (x.setWidth 32 <<< 24))

/-- R53, R50 (with R45, R46, R48, R49, R51, R52): every frame ENCODE builds is 10 to 255 bytes long, holds marker, T[1],
PRODUCT_ID, its own length, the command's byte and T[5] in bytes 0 to 5, then the payload, then the CRC of all bytes before
it, least significant byte first. -/
def Obligations.EncodedFrameLayout : Prop :=
  ∀ (p : Params) (t : Table) (c : Command) (payload f : List Byte),
    TableOk p t → encodeFrame p t c payload = .ok f →
      f.length = 10 + payload.length ∧ f.length ≤ 255 ∧
      f[0]? = some 0x55#8 ∧ f[1]? = some (regByte t 1#8) ∧ f[2]? = some p.productId ∧
      f[3]? = some (BitVec.ofNat 8 f.length) ∧ f[4]? = some (p.cmdCode.code c) ∧ f[5]? = some (regByte t 5#8) ∧
      (f.drop 6).take (f.length - 10) = payload ∧
      f.drop (f.length - 4) = le 4 (crc32 (f.take (f.length - 4))).toNat

/-- R81, R80: on a register table ENCODE gives a frame for every payload that fits, and FrameTooLong with the length for
every other. -/
def Obligations.EncodeRefusesOnlyLongFrames : Prop :=
  ∀ (p : Params) (t : Table) (c : Command) (payload : List Byte), TableOk p t →
    (10 + payload.length ≤ 255 → ∃ f, encodeFrame p t c payload = .ok f) ∧
    (255 < 10 + payload.length →
      encodeFrame p t c payload = .error (.validation (.frameTooLong (10 + payload.length))))

/-- R87 (the spec derives it): the decoder gives back the header fields and payload of every encoded frame. -/
def Obligations.FrameDecodesToItsFields : Prop :=
  ∀ (p : Params) (t : Table) (c : Command) (payload f : List Byte),
    TableOk p t → encodeFrame p t c payload = .ok f →
      decodeAndValidate f (10 + payload.length) =
        .ok { marker := 0x55#8, device := regByte t 1#8, product := p.productId,
              size := BitVec.ofNat 8 (10 + payload.length), command := p.cmdCode.code c, status := regByte t 5#8,
              payload := payload }

/-- R88 and R79 (the spec derives them): replacing any one byte of a valid frame, header, payload or CRC, by any other value
makes the decoder report ChecksumMismatch; so does, among these, the flip of any single bit. -/
def Obligations.OneWrongByteIsDetected : Prop :=
  ∀ (rx : List Byte) (n k : Nat) (d : DecodedFrame) (x : Byte),
    decodeAndValidate rx n = .ok d → k < rx.length → rx[k]? ≠ some x →
      decodeAndValidate (rx.set k x) n = .error .checksumMismatch

/-- R31: byte k of an n-byte little-endian field is bits 8k+7..8k of the value, and a byte list's value is the sum of its
bytes times 2^(8k). -/
def Obligations.LittleEndianFields : Prop :=
  (∀ (n v k : Nat), (le n v).length = n ∧ (k < n → (le n v)[k]? = some (BitVec.ofNat 8 (v / 2 ^ (8 * k))))) ∧
  (∀ b : List Byte, leValue b = ((List.range b.length).map (fun k => (b.getD k 0).toNat * 2 ^ (8 * k))).sum)

/-- R55: the value field of a register is as long as the register is wide, and decodes to the bit pattern it holds. -/
def Obligations.ValueFieldReadsBack : Prop :=
  ∀ (p : Params) (i : Byte) (v : Pattern), v.width = 8 * regWidth p i →
    (valueField p i v).length = regWidth p i ∧ fromLe (valueField p i v) = v

/-- R83, R86, R141: the decoder reports LengthMismatch exactly when the count differs from the prediction or the prediction
is below 10, otherwise ChecksumMismatch exactly when the stored and recomputed CRC differ, and otherwise returns the frame:
no other byte is checked. -/
def Obligations.DecoderMakesExactlyTwoChecks : Prop :=
  ∀ (rx : List Byte) (n : Nat),
    (decodeAndValidate rx n = .error (.lengthMismatch rx.length n) ↔ n < 10 ∨ rx.length ≠ n) ∧
    (decodeAndValidate rx n = .error .checksumMismatch ↔ 10 ≤ n ∧ rx.length = n ∧ ¬ CrcMatches rx) ∧
    (∀ d, decodeAndValidate rx n = .ok d ↔ 10 ≤ n ∧ rx.length = n ∧ CrcMatches rx ∧ d = frameOf rx)

/-- R45, R54, R55, R57 with the request decoder of R58 (its details: the model's choice, log 14): reading the frame the
encoder gives for a well-formed command gives back the command with every operand, the header bytes, and the values a write
carries. The one exception is a WRITE of ordinal 1 alone (WriteOfDeviceIdDecodesAsUpdateId). -/
def Obligations.EncodedRequestDecodes : Prop :=
  ∀ (p : Params) (t : Table) (i : Instr) (f : List Byte),
    p.Valid → TableOk p t → encode p t i = some f → i ≠ .write [1#8] →
      decodeRequest p f =
        .ok { device := regByte (tableFor p t i) 1#8, product := p.productId, status := regByte (tableFor p t i) 5#8,
              instr := i, values := sentValues t i }

/-- R97 and the UPDATE_ID row of the opcode table (which of the two readings: the model's choice, log 14): the frame of a
WRITE of ordinal 1 alone reads as UPDATE_ID of T[1], and that command's frame from the same table is the same frame. -/
def Obligations.WriteOfDeviceIdDecodesAsUpdateId : Prop :=
  ∀ (p : Params) (t : Table) (f : List Byte),
    p.Valid → TableOk p t → regByte t 1#8 ≠ 255#8 → encode p t (.write [1#8]) = some f →
      decode p f = .ok (.updateId (regByte t 1#8)) ∧ encode p t (.updateId (regByte t 1#8)) = some f

/-- R62 ("an operation's encoding is the request frame its rule builds"): the encoder written from the format tables and the
build functions the block runs give the same frame for the same commands. -/
def Obligations.EncoderGivesTheTransmittedFrame : Prop :=
  ∀ (p : Params) (t : Table) (i : Instr) (f : List Byte), p.Valid → TableOk p t →
    ((∃ a, build p t i = .ok (f, a)) ↔
      encode p t i = some f ∧ (isUnicast i = true → regByte t 1#8 ≠ 255#8))

/-- R58: the request decoder's command is the one whose byte stands in frame byte 4, and a frame whose byte 4 is outside the
image of CMD_CODE gives none. -/
def Obligations.RequestDecoderSelectsByByteFour : Prop :=
  ∀ (p : Params) (f : List Byte),
    (∀ r, decodeRequest p f = .ok r → f[4]? = some (p.cmdCode.code (commandOf r.instr))) ∧
    ((∀ c, f[4]? ≠ some (p.cmdCode.code c)) → ∀ i, decode p f ≠ .ok i)

/-- Frames the spec writes out (95_test_vectors.md MT-1, WR-1, RD-4, SW-2, UID-1) decode to their commands. -/
def Obligations.SpecFramesDecode : Prop :=
  decode Params.tv [0x55, 0x03, 0xBA, 0x0A, 0x00, 0x00, 0x52, 0x2E, 0xBE, 0x03] = .ok .ping ∧
  decode Params.tv [0x55, 0x03, 0xBA, 0x0D, 0x01, 0x00, 0x09, 0x34, 0x12, 0xE2, 0x8B, 0xA9, 0x1E] = .ok (.write [9]) ∧
  decode Params.tv [0x55, 0x03, 0xBA, 0x0D, 0x02, 0x00, 0x0D, 0x0E, 0x0B, 0x7E, 0xCA, 0x4C, 0xB6] =
    .ok (.read [13, 14, 11]) ∧
  decode Params.tv [0x55, 0xFF, 0xBA, 0x11, 0x40, 0x00, 0x0C, 0x04, 0x10, 0x04, 0x20, 0x09, 0x30, 0xE3, 0x25, 0xD8, 0x5F] =
    .ok (.syncWrite 12 [(4, ⟨8, 0x10⟩), (4, ⟨8, 0x20⟩), (9, ⟨8, 0x30⟩)]) ∧
  decode Params.tv [0x55, 0x03, 0xBA, 0x0C, 0x01, 0x00, 0x01, 0x07, 0x50, 0x35, 0xD4, 0x7F] = .ok (.updateId 7)

/-! ## The register table's operations -/

/-- R67 (with R65, R66): SET checks the index, then the fixed registers, then the width; else it writes the one register and
RESULT, and nothing else. -/
def Obligations.SetWritesOneRegister : Prop :=
  ∀ (s : State) (i : Byte) (v : Pattern), Ready s →
    execOp (.set i v) s = .next (
      if s.params.regCount ≤ i.toNat then failed (.validation (.indexOutOfRange i)) s
      else if i = 0#8 ∨ i = 2#8 then failed (.validation (.readOnly i)) s
      else if v.width ≠ 8 * regWidth s.params i then failed (.validation (.badValue i)) s
      else { s with table := s.table.set i.toNat (some v), result := .ok .empty })

/-- R67, R68, R40: a GET after a SET that succeeds returns the value set, and a GET of any other register returns what it
would have returned before. -/
def Obligations.SetThenGetReturnsTheValue : Prop :=
  ∀ (s : State) (i j : Byte) (v : Pattern), BlockInv s → Ready s → writeProblem s.params i = none →
    v.width = 8 * regWidth s.params i →
      ∃ t, execOps [.set i v, .get i] s = .next t ∧ t.result = .ok (.value v) ∧ t.phase = s.phase ∧
        ∀ u w, j ≠ i → execOp (.get j) s = .next u → execOps [.set i v, .get j] s = .next w → w.result = u.result

/-- R68 (FAULT clear is the premise R24 asks for): GET checks the index, raises the fault UnwrittenRegister on a register with
no value, and otherwise returns the mirror's value; nothing but RESULT (and FAULT) changes. -/
def Obligations.GetReadsTheMirror : Prop :=
  ∀ (s : State) (i : Byte), s.faultMark = .clear → Ready s →
    execOp (.get i) s = .next (
      if s.params.regCount ≤ i.toNat then { s with result := .failed (.validation (.indexOutOfRange i)) }
      else
        match readReg s.table i with
        | none => { s with result := .failed (.unwrittenRegister i), faultMark := .set (.unwrittenRegister i) }
        | some v => { s with result := .ok (.value v) })

/-- R69, R70: BYTE_WIDTH and ENCODING answer from the register map alone, for every defined ordinal, and otherwise report
IndexOutOfRange; nothing but RESULT changes. -/
def Obligations.ByteWidthAndEncodingFromTheMap : Prop :=
  ∀ (s : State) (i : Byte), Ready s →
    execOp (.byteWidth i) s = .next { s with
      result :=
        match s.params.regEnc[i.toNat]? with
        | none => .failed (.validation (.indexOutOfRange i))
        | some e => .ok (.width (match e with | .u8 | .i8 => 1 | .u16 | .i16 => 2 | .u32 | .i32 | .f32 => 4)) } ∧
    execOp (.encoding i) s = .next { s with
      result :=
        match s.params.regEnc[i.toNat]? with
        | none => .failed (.validation (.indexOutOfRange i))
        | some e => .ok (.encoding e) }

/-- R71 (with R28): ATTACH refuses 255 and otherwise leaves a table of N registers that holds marker, id, PRODUCT_ID and
STATUS_INIT in registers 0, 1, 2 and 5 and no value elsewhere; nothing but T and RESULT changes. -/
def Obligations.AttachMakesAFreshTable : Prop :=
  ∀ (s : State) (id : Byte), s.params.Valid → Ready s →
    (id = 255#8 → execOp (.attach id) s = .next { s with result := .failed (.validation (.badDeviceId 255#8)) }) ∧
    (id ≠ 255#8 → ∃ t, execOp (.attach id) s = .next { s with table := t, result := .ok .empty } ∧
      t.length = s.params.regCount ∧
      readReg t 0#8 = some ⟨8, 0x55#8⟩ ∧ readReg t 1#8 = some ⟨8, id⟩ ∧ readReg t 2#8 = some ⟨8, s.params.productId⟩ ∧
      readReg t 5#8 = some ⟨8, s.params.statusInit⟩ ∧
      ∀ i : Byte, i ≠ 0#8 → i ≠ 1#8 → i ≠ 2#8 → i ≠ 5#8 → readReg t i = none)

/-- R138 (FAULT clear is the premise R24 asks for): every operation issued while PHASE is FrameSent or AwaitingAck is not
performed: RESULT and FAULT hold Busy with the operation, and nothing else changes. The same of a command issued in the split
form, recorded as that command (the form of the record: the model's choice, log 18): no byte is sent and ACK_LATCH stays. -/
def Obligations.BusyWhileInFlight : Prop :=
  ∀ s : State, s.faultMark = .clear → (s.phase = .frameSent ∨ s.phase = .awaitingAck) →
    (∀ op : HostOp, isOperation op = true →
      execOp op s = .next { s with result := .failed (.busy op), faultMark := .set (.busy op) }) ∧
    (∀ i : Instr, execOp (.begin i) s =
      .next { s with result := .failed (.busy (.command i)), faultMark := .set (.busy (.command i)) })

/-! ## The commands -/

/-- R93 (FAULT clear is the premise R24 asks for): WRITE's checks in their order, each with its failure and no byte sent;
otherwise one frame with the table's values, no read, Applied, and nothing else changed: T among it. -/
def Obligations.WriteTransaction : Prop :=
  ∀ (s : State) (is : List Byte), Safe s → Ready s →
    exec (.write is) s = .next (
      if regByte s.table 1#8 = 255#8 then rejected (.validation (.badDeviceId 255#8)) s
      else if is = [] then rejected (.validation .emptyList) s
      else
        match is.findSome? (writeProblem s.params) with
        | some f => rejected f s
        | none =>
          match is.find? (fun i => (readReg s.table i).isNone) with
          | some i => rejected (.unwrittenRegister i) s
          | none =>
            if 255 < 10 + pairsLen s.params is then
              rejected (.validation (.frameTooLong (10 + pairsLen s.params is))) s
            else sentOnly (frameFor s.params s.table .write (pairsOf s.params s.table is)) s)

/-- R94 (FAULT clear is the premise R24 asks for): WRITE_ACK has WRITE's checks and payload; after the settle interval it reads
10 bytes once and ends by length, then CRC, then Applied with the decoded frame; T is not changed. -/
def Obligations.WriteAckTransaction : Prop :=
  ∀ (s : State) (is : List Byte), Safe s → Ready s →
    exec (.writeAck is) s = .next (
      if regByte s.table 1#8 = 255#8 then rejected (.validation (.badDeviceId 255#8)) s
      else if is = [] then rejected (.validation .emptyList) s
      else
        match is.findSome? (writeProblem s.params) with
        | some f => rejected f s
        | none =>
          match is.find? (fun i => (readReg s.table i).isNone) with
          | some i => rejected (.unwrittenRegister i) s
          | none =>
            if 255 < 10 + pairsLen s.params is then
              rejected (.validation (.frameTooLong (10 + pairsLen s.params is))) s
            else endsWith (frameFor s.params s.table .writeAck (pairsOf s.params s.table is)) 10 acknowledged s)

/-- R95: READ's checks in their order, the predicted length before the frame; otherwise one frame of the indices, one read of
the predicted length, and the acknowledgment's pairs applied all or none. -/
def Obligations.ReadTransaction : Prop :=
  ∀ (s : State) (is : List Byte), BlockInv s → Ready s →
    exec (.read is) s = .next (
      if regByte s.table 1#8 = 255#8 then rejected (.validation (.badDeviceId 255#8)) s
      else if is = [] then rejected (.validation .emptyList) s
      else
        match is.findSome? (readProblem s.params) with
        | some f => rejected f s
        | none =>
          if 255 < 10 + pairsLen s.params is then
            rejected (.validation (.frameTooLong (10 + pairsLen s.params is))) s
          else endsWith (frameFor s.params s.table .read is) (10 + pairsLen s.params is) applyPairs s)

/-- R96: SYNC_WRITE's checks in their order; otherwise one frame to ID 255 from a fresh scratch table with the operands'
values, no read, Applied; no table is read or changed. -/
def Obligations.SyncWriteTransaction : Prop :=
  ∀ (s : State) (i : Byte) (ts : List (Byte × Pattern)), BlockInv s → Ready s →
    exec (.syncWrite i ts) s = .next (
      match writeProblem s.params i with
      | some f => rejected f s
      | none =>
        if ts = [] then rejected (.validation .emptyList) s
        else
          match ts.findSome? (targetProblem s.params i) with
          | some f => rejected f s
          | none =>
            if 255 < 11 + ts.length * (1 + regWidth s.params i) then
              rejected (.validation (.frameTooLong (11 + ts.length * (1 + regWidth s.params i)))) s
            else
              let body := [0x55#8, 255#8, s.params.productId, BitVec.ofNat 8 (11 + ts.length * (1 + regWidth s.params i)),
                s.params.cmdCode.syncWrite, s.params.statusInit] ++ syncOf s.params i ts
              sentOnly (body ++ le 4 (crc32 body).toNat) s)

/-- R97: UPDATE_ID checks T[1], then the new ID; otherwise it sends a WRITE frame to the current ID whose payload is
`[1, new]`, no read, Applied, and T keeps the old ID. -/
def Obligations.UpdateIdTransaction : Prop :=
  ∀ (s : State) (new : Byte), BlockInv s → Ready s →
    exec (.updateId new) s = .next (
      if regByte s.table 1#8 = 255#8 then rejected (.validation (.badDeviceId 255#8)) s
      else if new = 255#8 then rejected (.validation (.badDeviceId 255#8)) s
      else sentOnly (frameFor s.params s.table .write [1#8, new]) s)

/-- R112, R113, R118 (with R110): REBOOT, HARD_RESET and ENTER_BOOTLOADER refuse the placeholder and otherwise send their
10-byte frame, read nothing and end Applied; nothing else changes, the mirror among it. -/
def Obligations.UnacknowledgedMaintenance : Prop :=
  ∀ (s : State) (i : Instr) (c : Command), BlockInv s → Ready s →
    (i, c) ∈ [(Instr.reboot, Command.reboot), (.hardReset, .hardReset), (.enterBootloader, .enterBootloader)] →
      exec i s = .next (
        if regByte s.table 1#8 = 255#8 then rejected (.validation (.badDeviceId 255#8)) s
        else sentOnly (frameFor s.params s.table c []) s)

/-- R111, R114, R115, R116 (with R110): PING, EEPROM_WRITE, EEPROM_WRITE_ACK and RESET_ENCODER refuse the placeholder and
otherwise send their 10-byte frame, read 10 bytes once and end by length, then CRC, then Applied; T is not changed. -/
def Obligations.AcknowledgedMaintenance : Prop :=
  ∀ (s : State) (i : Instr) (c : Command), BlockInv s → Ready s →
    (i, c) ∈ [(Instr.ping, Command.ping), (.eepromWrite, .eepromWrite), (.eepromWriteAck, .eepromWriteAck),
      (.resetEncoder, .resetEncoder)] →
      exec i s = .next (
        if regByte s.table 1#8 = 255#8 then rejected (.validation (.badDeviceId 255#8)) s
        else endsWith (frameFor s.params s.table c []) 10 acknowledged s)

/-- R117: SCAN_SENSORS reads SCAN_ACK_LEN bytes once; on a valid acknowledgment RESULT holds the decoded frame with its
payload, SCAN_ACK_LEN - 10 bytes, uninterpreted, and T is not changed. -/
def Obligations.ScanSensorsReturnsRawPayload : Prop :=
  ∀ (s : State), BlockInv s → Ready s →
    exec .scanSensors s = .next (
      if regByte s.table 1#8 = 255#8 then rejected (.validation (.badDeviceId 255#8)) s
      else endsWith (frameFor s.params s.table .scanSensors []) s.params.scanAckLen acknowledged s) ∧
    ((answer s.params.scanAckLen s).length = s.params.scanAckLen →
      (frameOf (answer s.params.scanAckLen s)).payload.length = s.params.scanAckLen - 10)

/-- R120: a request of SYNC_READ, BULK_READ or BULK_WRITE raises Unimplemented: RESULT and PHASE say so, and no frame is
built, no byte sent, ACK_LATCH and T stay. This is the commands' own effect, on any table. And no command's frame carries
one of their command bytes in byte 4. -/
def Obligations.ReservedCommandsAreRefused : Prop :=
  (∀ (s : State) (i : Instr) (c : Command), Ready s →
    (i, c) ∈ [(Instr.syncRead, Command.syncRead), (.bulkRead, .bulkRead), (.bulkWrite, .bulkWrite)] →
      exec i s = .next { s with result := .failed (.unimplemented c), phase := .rejected }) ∧
  (∀ (p : Params) (t : Table) (i : Instr) (f : List Byte) (a : Option AckPrediction) (c : Command), p.Valid →
    build p t i = .ok (f, a) → c ∈ [Command.syncRead, .bulkRead, .bulkWrite] → f[4]? ≠ some (p.cmdCode.code c))

/-- Completion of WRITE, SYNC_WRITE, UPDATE_ID, REBOOT, HARD_RESET and ENTER_BOOTLOADER: whenever the command has a request
frame and, if it goes to one device, the table is attached, the transaction sends exactly that frame and ends Applied. -/
def Obligations.UnacknowledgedCommandsComplete : Prop :=
  ∀ (s : State) (i : Instr) (f : List Byte), BlockInv s → Ready s →
    encode s.params s.table i = some f → prediction s.params i = none →
    (isUnicast i = true → regByte s.table 1#8 ≠ 255#8) →
      exec i s = .next { s with
        bus := s.bus ++ [.write f, .sleep 10 s.baud], result := .ok .empty, phase := .applied }

/-- Completion of PING, EEPROM_WRITE, EEPROM_WRITE_ACK, RESET_ENCODER, SCAN_SENSORS, WRITE_ACK and READ: whenever the command
has a request frame, the table is attached and the environment answers a valid frame of the predicted length (for READ, one
whose payload splits into pairs), the transaction sends that frame, reads once and ends Applied with the decoded frame; READ
writes the pairs into T, the others leave T. -/
def Obligations.AcknowledgedCommandsComplete : Prop :=
  ∀ (s : State) (i : Instr) (f : List Byte) (n : Nat) (k : AckKind) (ps : List (Byte × Pattern)), BlockInv s → Ready s →
    encode s.params s.table i = some f → prediction s.params i = some ⟨n, k⟩ → regByte s.table 1#8 ≠ 255#8 →
    (answer n s).length = n → CrcMatches (answer n s) →
    (k = .readData → parsePairs s.params (frameOf (answer n s)).payload = .ok ps) →
      exec i s = .next { s with
        table := if k = .readData then written s.table ps else s.table
        bus := s.bus ++ [.write f, .sleep 10 s.baud, .read n (answer n s)]
        answers := s.answers.tail
        draws := s.draws + 1
        result := .ok (.frame (frameOf (answer n s)))
        phase := .applied }

/-! ## The acknowledgment of a READ -/

/-- R99: the split of a payload succeeds exactly when the payload is a sequence of pairs, each a defined ordinal and a value
of that ordinal's width, little-endian; and it gives those pairs. -/
def Obligations.PayloadSplitsIntoPairs : Prop :=
  ∀ (p : Params) (b : List Byte) (ps : List (Byte × Pattern)),
    parsePairs p b = .ok ps ↔
      b = ps.flatMap (fun iv => iv.1 :: le (regWidth p iv.1) iv.2.toNat) ∧
      ∀ iv ∈ ps, iv.1.toNat < p.regCount ∧ iv.2.width = 8 * regWidth p iv.1

/-- R100: a split that fails reports PayloadMalformed with the offset of the index byte that names no register or whose value
runs past the end, all before it being pairs. -/
def Obligations.MalformedPayloadOffset : Prop :=
  ∀ (p : Params) (b : List Byte) (f : Failure), parsePairs p b = .error f →
    ∃ (ps : List (Byte × Pattern)) (i : Byte) (rest : List Byte),
      b = ps.flatMap (fun iv => iv.1 :: le (regWidth p iv.1) iv.2.toNat) ++ i :: rest ∧
      (∀ iv ∈ ps, iv.1.toNat < p.regCount ∧ iv.2.width = 8 * regWidth p iv.1) ∧
      f = .payloadMalformed (b.length - (rest.length + 1)) ∧
      (p.regCount ≤ i.toNat ∨ rest.length < regWidth p i)

/-- R98, R101, R102: after a READ that ends Applied, a register of T holds the value of the last pair for it in the payload,
if it is not fixed and has one, and otherwise what it held; RESULT holds the decoded frame. -/
def Obligations.AcknowledgedPairsLandInTheTable : Prop :=
  ∀ (s t : State) (is : List Byte), BlockInv s → Ready s → exec (.read is) s = .next t → t.phase = .applied →
    ∃ (d : DecodedFrame) (ps : List (Byte × Pattern)),
      t.result = .ok (.frame d) ∧ parsePairs s.params d.payload = .ok ps ∧
      ∀ i : Byte, readReg t.table i =
        if i = 0#8 ∨ i = 2#8 then readReg s.table i
        else
          match ps.reverse.find? (fun iv => iv.1 == i) with
          | some iv => some iv.2
          | none => readReg s.table i

/-- R103, R86: what a READ leaves in T, PHASE and FAULT depends on the acknowledgment's payload alone: two valid answers with
the same payload and different header bytes leave the same. -/
def Obligations.AcknowledgmentHeaderIsNotApplied : Prop :=
  ∀ (s ta tb : State) (is a b : List Byte), BlockInv s → Ready s →
    a.length = 10 + pairsLen s.params is → b.length = 10 + pairsLen s.params is → CrcMatches a → CrcMatches b →
    (frameOf a).payload = (frameOf b).payload →
    exec (.read is) { s with answers := a :: s.answers } = .next ta →
    exec (.read is) { s with answers := b :: s.answers } = .next tb →
      ta.table = tb.table ∧ ta.phase = tb.phase ∧ ta.faultMark = tb.faultMark

/-! ## Failures, the transaction and PHASE -/

/-- R130: the numeric code of every outcome, and the two codes that are faults and set FAULT. -/
def Obligations.OutcomeCodes : Prop :=
  (∀ d, resultCode (.ok d) = 0) ∧
  (∀ v, resultCode (.failed (.validation v)) = 1) ∧
  (∀ a b, resultCode (.failed (.lengthMismatch a b)) = 2) ∧
  resultCode (.failed .checksumMismatch) = 3 ∧
  (∀ k, resultCode (.failed (.payloadMalformed k)) = 4) ∧
  (∀ c, resultCode (.failed (.unimplemented c)) = 5) ∧
  (∀ i, resultCode (.failed (.unwrittenRegister i)) = 6) ∧
  (∀ op, resultCode (.failed (.busy op)) = 7) ∧
  (∀ id, resultCode (.failed (.unknownDevice id)) = 8) ∧
  (∀ f, isFault f = true ↔ failureCode f = 6 ∨ failureCode f = 7)

/-- R131, R142 (the FAULT clause under the premise R24 asks for): an operation that ends in an error or fault leaves T as it
was. A command's transaction is Rejected, and either sent no byte and did not write ACK_LATCH, or sent one frame and read
once and cleared ACK_LATCH. A local operation, and Busy, leave PHASE, ACK_LATCH and the bus alone. A fault sets FAULT, an
error does not. -/
def Obligations.FailureLeavesTheTable : Prop :=
  ∀ (s t : State) (op : HostOp) (f : Failure), isOperation op = true → execOp op s = .next t → t.result = .failed f →
    t.table = s.table ∧
    (if isCommand op = true ∧ f ≠ .busy op then
      t.phase = .rejected ∧
      ((t.bus = s.bus ∧ t.ackLatch = s.ackLatch) ∨
        (∃ fr n rx, t.bus = s.bus ++ [.write fr, .sleep 10 s.baud, .read n rx] ∧ t.ackLatch = none))
    else t.phase = s.phase ∧ t.ackLatch = s.ackLatch ∧ t.bus = s.bus) ∧
    (s.faultMark = .clear →
      t.faultMark = if failureCode f = 6 ∨ failureCode f = 7 then .set f else .clear)

/-- R155, R156, R159: a command makes no transport call; or one `write` and the settle interval's `sleep` of 10 bit periods at
the current rate; or these and then one `read`, which returns at most its bound. Nothing else. -/
def Obligations.OneWriteAtMostOneRead : Prop :=
  ∀ (s t : State) (i : Instr), exec i s = .next t →
    t.bus = s.bus ∨
    (∃ f, t.bus = s.bus ++ [.write f, .sleep 10 s.baud]) ∨
    (∃ f n rx, t.bus = s.bus ++ [.write f, .sleep 10 s.baud, .read n rx] ∧ rx.length ≤ n)

/-- R154: a transaction run as one atomic step, and the same transaction split at its two suspension points (after the
transmission, and at the read), give the same state. -/
def Obligations.SplitTransactionGivesTheSameResult : Prop :=
  ∀ (s : State) (i : Instr), Ready s → execOps [.begin i, .settled, .received] s = exec i s

/-- R154's table: how each operation moves PHASE. A whole command ends Applied exactly when RESULT is Ok. The end of the read
leads to Applied exactly when the answer is a valid frame, whose payload splits into pairs if it is to be applied, and RESULT
then holds a frame; and to Rejected exactly when RESULT holds LengthMismatch, ChecksumMismatch or PayloadMalformed (R130 codes
2 to 4). -/
def Obligations.PhaseFollowsTheTable : Prop :=
  ∀ (s t : State) (op : HostOp), BlockInv s → execOp op s = .next t →
    match op with
    | .command _ =>
      if Ready s then
        (t.phase = .applied ∨ t.phase = .rejected) ∧
        (t.phase = .applied ↔ ∃ x, t.result = .ok x)
      else t.phase = s.phase
    | .begin i =>
      if Ready s then
        (t.phase = .frameSent ∨ t.phase = .rejected) ∧
        (t.phase = .frameSent ↔ ∃ b, build s.params s.table i = .ok b)
      else t.phase = s.phase
    | .settled =>
      if s.phase = .frameSent then if s.ackLatch = none then t.phase = .applied else t.phase = .awaitingAck
      else t.phase = s.phase
    | .received =>
      if s.phase = .awaitingAck then
        (t.phase = .applied ∨ t.phase = .rejected) ∧
        (t.phase = .applied ↔ ∃ d, t.result = .ok (.frame d)) ∧
        (t.phase = .rejected ↔ ∃ f, t.result = .failed f ∧ 2 ≤ failureCode f ∧ failureCode f ≤ 4) ∧
        (∀ a, s.ackLatch = some a →
          (t.phase = .applied ↔
            ∃ d, decodeAndValidate (answer a.len s) a.len = .ok d ∧
              (a.kind = .readData → ∃ ps, parsePairs s.params d.payload = .ok ps)))
      else t.phase = s.phase
    | .attach _ | .set _ _ | .get _ | .byteWidth _ | .encoding _ | .handTable _ | .setBaud _ => t.phase = s.phase

/-- R158: the step that transmits a command's frame latches that command's prediction, and changes only what that takes; the
receive step reads exactly the latched length and clears the latch; a completion without acknowledgment leaves it clear. -/
def Obligations.PredictionIsLatchedWithItsFrame : Prop :=
  (∀ (s t : State) (i : Instr), BlockInv s → Ready s → execOp (.begin i) s = .next t → t.phase = .frameSent →
    ∃ f, encode s.params s.table i = some f ∧
      t = { s with
        bus := s.bus ++ [.write f]
        ackLatch := prediction s.params i
        phase := .frameSent
        settlePending := true }) ∧
  (∀ (s t : State) (a : AckPrediction), s.phase = .awaitingAck → s.ackLatch = some a →
    execOp .received s = .next t →
      t.bus = s.bus ++ [.read a.len (answer a.len s)] ∧ t.ackLatch = none) ∧
  (∀ (s t : State), BlockInv s → s.phase = .frameSent → execOp .settled s = .next t →
    t.settlePending = false ∧ t.ackLatch = s.ackLatch ∧ t.bus = s.bus ++ [.sleep 10 s.baud])

/-! ## Reset, invariants and whole-machine rules -/

/-- R27: the block's registers after reset, whatever the parameters. -/
def Obligations.ResetLeavesTheBlockIdle : Prop :=
  (∀ p : Params, (State.resetWith p).phase = .idle ∧ (State.resetWith p).ackLatch = none ∧
    (State.resetWith p).result = .ok .empty ∧ (State.resetWith p).faultMark = .clear ∧
    (State.resetWith p).settlePending = false) ∧
  State.reset.phase = .idle ∧ State.reset.ackLatch = none ∧ State.reset.result = .ok .empty ∧
  State.reset.faultMark = .clear ∧ State.reset.settlePending = false

/-- R151 (that the table before any ATTACH is the placeholder: the model's choice, log 3): from reset, every unicast command
ends in BadDeviceId, whatever its operands, and no byte is sent. -/
def Obligations.UnattachedTableRejectsUnicast : Prop :=
  ∀ (p : Params) (i : Instr), p.Valid → isUnicast i = true →
    exec i (State.resetWith p) =
      .next { State.resetWith p with result := .failed (.validation (.badDeviceId 255#8)), phase := .rejected }

/-- The invariant holds right after reset, for every parameter choice R5 allows. -/
def Obligations.InvariantHoldsAtReset : Prop :=
  (∀ p : Params, p.Valid → BlockInv (State.resetWith p)) ∧ BlockInv State.reset

/-- Every step of the machine keeps the invariant (R13, R14, R15, R20, R24, R39, R139): T stays a register table with its
fixed registers at their constants and each value as wide as its register, PHASE, ACK_LATCH and the settle interval stay in
agreement, a latched length stays within 10..255. -/
def Obligations.StepKeepsTheInvariant : Prop :=
  ∀ s t : State, BlockInv s → step s = .next t → BlockInv t

/-- The host's next operation, whichever it is, is performed by the next step and taken from the list, a command by `exec`; with
none issued a step changes nothing; and the command that a word of the opcode table decodes to, once placed, is what the next
step runs (the interface: logs 4 and 15). -/
def Obligations.StepRunsTheIssuedCommand : Prop :=
  (∀ (s : State) (op : HostOp) (rest : List HostOp), s.pending = op :: rest →
    step s = execOp op { s with pending := rest }) ∧
  (∀ (s : State) (i : Instr) (rest : List HostOp), s.pending = .command i :: rest →
    step s = exec i { s with pending := rest }) ∧
  (∀ s : State, s.pending = [] → step s = .next s) ∧
  (∀ (s : State) (nbits w : Nat) (i : Instr), decode s.params (frameOfWord nbits w) = .ok i →
    step (s.withFetchWord nbits w) = exec i s)

/-- R24, R143 (the info FAULT holds after a second fault: the model's choice, log 9): no step clears FAULT, and a step changes
it only by ending in a fault, whose code and info it then holds. -/
def Obligations.FaultMarkIsSticky : Prop :=
  ∀ s t : State, step s = .next t →
    (s.faultMark ≠ .clear → t.faultMark ≠ .clear) ∧
    (t.faultMark ≠ s.faultMark →
      ∃ f, t.result = .failed f ∧ (failureCode f = 6 ∨ failureCode f = 7) ∧ t.faultMark = .set f)

/-- R24, R150: no step changes a parameter, and only the host's own setBaud changes its line rate. -/
def Obligations.ParametersNeverChange : Prop :=
  ∀ s t : State, step s = .next t →
    t.params = s.params ∧ (t.baud ≠ s.baud → ∃ b rest, s.pending = .setBaud b :: rest ∧ t.baud = b)

/-- R17 (with ATTACH, R71, and the host handing another table, R11, log 12): T changes only by SET, by ATTACH or a handed
table, and by the application of a READ acknowledgment. -/
def Obligations.OnlySetAttachAndReadChangeTheTable : Prop :=
  ∀ (s t : State) (op : HostOp), execOp op s = .next t → t.table ≠ s.table →
    (∃ i v, op = .set i v) ∨ (∃ id, op = .attach id) ∨ (∃ u, op = .handTable u) ∨
    (∃ is, op = .command (.read is) ∧ t.phase = .applied) ∨
    (op = .received ∧ s.phase = .awaitingAck ∧ (∃ n, s.ackLatch = some ⟨n, .readData⟩) ∧ t.phase = .applied)

/-- R96, R29: a SYNC_WRITE neither reads nor changes the table: from two states that differ only in T it reaches states that
differ only in T, with the same frame. -/
def Obligations.SyncWriteIgnoresTheTable : Prop :=
  ∀ (s : State) (u : Table) (i : Byte) (ts : List (Byte × Pattern)), ∃ t,
    exec (.syncWrite i ts) s = .next t ∧ t.table = s.table ∧
    exec (.syncWrite i ts) { s with table := u } = .next { t with table := u }

/-- R14: register 0 holds the marker and register 2 PRODUCT_ID after every step from a state of the invariant, and SET refuses
both with ReadOnly, whatever the value. -/
def Obligations.FixedRegistersKeepTheirConstants : Prop :=
  (∀ s t : State, BlockInv s → step s = .next t →
    readReg t.table 0#8 = some ⟨8, 0x55#8⟩ ∧ readReg t.table 2#8 = some ⟨8, t.params.productId⟩) ∧
  (∀ (s : State) (i : Byte) (v : Pattern), BlockInv s → Ready s → i = 0#8 ∨ i = 2#8 →
    execOp (.set i v) s = .next { s with result := .failed (.validation (.readOnly i)) })

/-- R139: the Device Registry's error UnknownDevice comes from no operation of the block. -/
def Obligations.BlockNeverRaisesUnknownDevice : Prop :=
  ∀ (s t : State) (op : HostOp) (id : Byte), execOp op s = .next t → t.result = .failed (.unknownDevice id) →
    t.result = s.result

/-- No command stops the model: in every state, whatever the operands and the environment's answer, a command ends in a next
state (R22: all failures are results). -/
def Obligations.CommandsAlwaysAnswer : Prop :=
  ∀ (s : State) (i : Instr), ∃ t, exec i s = .next t ∧ t.params = s.params ∧ t.baud = s.baud ∧ t.pending = s.pending

/-! ## The host's side -/

/-- R104: `set_variables`, with or without acknowledgment, its ordinals writable and its values of their registers' widths,
writes the mirror first and sends second: the frame is built from the written table, and however the WRITE or WRITE_ACK ends,
a failed acknowledgment among its ends, the written values stay in T. -/
def Obligations.FailedAckKeepsTheSets : Prop :=
  ∀ (s : State) (pairs : List (Byte × Pattern)) (ack : Bool), BlockInv s → Ready s →
    (∀ iv ∈ pairs, writeProblem s.params iv.1 = none ∧ iv.2.width = 8 * regWidth s.params iv.1) →
      ∃ (r : Result) (t : State),
        execOps (expandCall s.params (.setVariables pairs ack)) s = .next t ∧
        exec (if ack then .writeAck (pairs.map Prod.fst) else .write (pairs.map Prod.fst))
          { s with table := written s.table pairs, result := r } = .next t ∧
        t.table = written s.table pairs

/-- R105: when the READ of `get_variables` does not end Applied, the absent result is returned and no GET is made. When it ends
Applied, one result an ordinal is returned, in order: the applied value, or the fault of a GET whose register holds none (which
the spec leaves open: log 21); and when every requested register holds a value, only RESULT changes after the READ. -/
def Obligations.GetVariablesReadsAfterApplied : Prop :=
  ∀ (s u : State) (is : List Byte), BlockInv s → exec (.read is) s = .next u →
    (u.phase ≠ .applied → callGetVariables is s = .next (none, u)) ∧
    (u.phase = .applied → ∃ t,
      callGetVariables is s = .next
        (some (is.map (fun j =>
          match readReg u.table j with
          | some v => .ok (.value v)
          | none => .failed (.unwrittenRegister j))), t) ∧
      t.table = u.table ∧ t.phase = .applied ∧ t.ackLatch = u.ackLatch ∧ t.bus = u.bus) ∧
    (u.phase = .applied → (∀ j ∈ is, (readReg u.table j).isSome = true) →
      ∃ (vs : List Pattern) (v : Pattern), is.map (readReg u.table) = vs.map some ∧ vs.getLast? = some v ∧
        callGetVariables is s =
          .next (some (vs.map (fun x => .ok (.value x))), { u with result := .ok (.value v) }))

/-- R160, R63 (which write command step 1 uses is the spec's own reading, D35; that the host goes on to REBOOT however
EEPROM_WRITE's acknowledgment ended is the model's choice, log 20): the baud-rate change of an attached device
writes the register, persists it, reboots, in that order, each frame followed by a settle interval at the OLD rate, and only
then is the host's rate the new one. -/
def Obligations.BaudChangeOrder : Prop :=
  ∀ (s : State) (v : Pattern) (b : Nat), BlockInv s → Ready s → regByte s.table 1#8 ≠ 255#8 → 0 < b →
    v.width = 8 * regWidth s.params s.params.baudIndex →
      ∃ (t : State) (rx : List Byte),
        let u := s.table.set s.params.baudIndex.toNat (some v)
        execOps (expandCall s.params (.updateDriverBaudrate v b)) s = .next t ∧ t.baud = b ∧ t.table = u ∧
        t.bus = s.bus ++
          [.write (frameFor s.params u .write (s.params.baudIndex :: le (regWidth s.params s.params.baudIndex) v.toNat)),
           .sleep 10 s.baud,
           .write (frameFor s.params u .eepromWrite []), .sleep 10 s.baud, .read 10 rx,
           .write (frameFor s.params u .reboot []), .sleep 10 s.baud]

/-- R11, R160 as host inputs (the model's choice, logs 11 and 12): between transactions a handed register table becomes T and
nothing else changes, and anything else handed stops the model; during a transaction handing a table is Busy (FAULT clear is
the premise R24 asks for); a positive rate becomes BAUD, and 0 stops the model. -/
def Obligations.HostInputsTakeEffect : Prop :=
  (∀ (s : State) (t : Table), s.params.Valid → Ready s →
    (TableOk s.params t → execOp (.handTable t) s = .next { s with table := t }) ∧
    (¬ TableOk s.params t → execOp (.handTable t) s = .fault .notATable)) ∧
  (∀ (s : State) (t : Table), s.faultMark = .clear → (s.phase = .frameSent ∨ s.phase = .awaitingAck) →
    execOp (.handTable t) s =
      .next { s with result := .failed (.busy (.handTable t)), faultMark := .set (.busy (.handTable t)) }) ∧
  (∀ (s : State) (b : Nat), 0 < b → execOp (.setBaud b) s = .next { s with baud := b }) ∧
  (∀ s : State, execOp (.setBaud 0) s = .fault .zeroBaud)

/-- R16, R55 (two's complement and binary32: the spec's general knowledge, log 16): the host's number of a pattern. -/
def Obligations.HostNumberOfAPattern : Prop :=
  (∀ p : BitVec 8, hostNumber .u8 ⟨8, p⟩ = .int p.toNat ∧
    hostNumber .i8 ⟨8, p⟩ = .int (if p.getLsbD 7 then (p.toNat : Int) - 256 else p.toNat)) ∧
  (∀ p : BitVec 16, hostNumber .u16 ⟨16, p⟩ = .int p.toNat ∧
    hostNumber .i16 ⟨16, p⟩ = .int (if p.getLsbD 15 then (p.toNat : Int) - 65536 else p.toNat)) ∧
  (∀ p : BitVec 32, hostNumber .u32 ⟨32, p⟩ = .int p.toNat ∧
    hostNumber .i32 ⟨32, p⟩ = .int (if p.getLsbD 31 then (p.toNat : Int) - 4294967296 else p.toNat) ∧
    hostNumber .f32 ⟨32, p⟩ = .float32 ⟨32, p⟩)
end

