-- ==== Sys2Proof/Laws/Codec.lean ====
section
/-! SUPPORT. Small lemmas of the codec: little-endian fields, the CRC's byte step, ENCODE and the decoder. -/

namespace Sys2Proof.Laws

open Machine

/-- Two patterns of one width and one number are one pattern. -/
theorem pattern_ext {v w : Pattern} (hw : v.width = w.width) (hn : v.toNat = w.toNat) : v = w := by
  obtain ⟨n, x⟩ := v
  obtain ⟨m, y⟩ := w
  obtain rfl : n = m := hw
  exact congrArg _ (BitVec.eq_of_toNat_eq hn)

@[simp] theorem le_length (n v : Nat) : (le n v).length = n := by
  induction n generalizing v with
  | zero => rfl
  | succ n ih => simp [le, ih]

/-- Byte `k` of a little-endian field (R31). -/
theorem le_getElem? (n v k : Nat) (h : k < n) : (le n v)[k]? = some (BitVec.ofNat 8 (v / 256 ^ k)) := by
  induction n generalizing v k with
  | zero => omega
  | succ n ih =>
    cases k with
    | zero => simp [le]
    | succ k =>
      rw [le, List.getElem?_cons_succ, ih _ _ (by omega), Nat.div_div_eq_div_mul, Nat.pow_succ, Nat.mul_comm]

/-- Reading back a little-endian field gives the value within the field's width (R31). -/
theorem leValue_le (n v : Nat) : leValue (le n v) = v % 256 ^ n := by
  induction n generalizing v with
  | zero => simp [le, leValue, Nat.mod_one]
  | succ n ih =>
    rw [le, leValue, ih, BitVec.toNat_ofNat, show 256 ^ (n + 1) = 256 * 256 ^ n from Nat.pow_succ', Nat.mod_mul]

theorem leValue_lt (b : List Byte) : leValue b < 256 ^ b.length := by
  induction b with
  | nil => simp [leValue]
  | cons x r ih =>
    have := x.isLt
    rw [leValue, List.length_cons, Nat.pow_succ]
    omega

@[simp] theorem fromLe_width (b : List Byte) : (fromLe b).width = 8 * b.length := rfl

theorem fromLe_toNat (b : List Byte) : (fromLe b).toNat = leValue b := by
  show (BitVec.ofNat (8 * b.length) (leValue b)).toNat = _
  rw [BitVec.toNat_ofNat, Nat.pow_mul]
  exact Nat.mod_eq_of_lt (leValue_lt b)

/-- A value's field reads back as the value (R55). -/
theorem fromLe_le (n : Nat) (v : Pattern) (h : v.width = 8 * n) : fromLe (le n v.toNat) = v := by
  refine pattern_ext (by simp [h]) ?_
  rw [fromLe_toNat, leValue_le]
  have e : 2 ^ v.width = 256 ^ n := by rw [h, Nat.pow_mul]
  exact Nat.mod_eq_of_lt (lt_of_lt_of_eq v.bits.isLt e)

/-- A little-endian field is given by its value. -/
theorem le_leValue (b : List Byte) : le b.length (leValue b) = b := by
  induction b with
  | nil => rfl
  | cons x r ih =>
    have h1 : (x.toNat + 256 * leValue r) / 256 = leValue r := by have := x.isLt; omega
    rw [List.length_cons, leValue, le, h1, ih]
    congr 1
    apply BitVec.eq_of_toNat_eq
    have := x.isLt
    simp only [BitVec.toNat_ofNat]
    omega

/-- Forcing a word to a numeral changes no meaning. -/
theorem forced_eq {α : Type} (c : Word) (k : Word → α) : forced c k = k c := by
  unfold forced
  split
  · next h => exact congrArg k (BitVec.eq_of_toNat_eq (by simp [h]))
  · next n h =>
    refine congrArg k (BitVec.eq_of_toNat_eq ?_)
    have := c.isLt
    rw [BitVec.toNat_ofNat, Nat.mod_eq_of_lt (by omega)]
    omega

@[simp] theorem crcFrom_nil (c : Word) : crcFrom [] c = c := rfl

@[simp] theorem crcFrom_cons (b : Byte) (r : List Byte) (c : Word) :
    crcFrom (b :: r) c = crcFrom r (crcByte c b) := by
  rw [crcFrom, forced_eq]

/-- The CRC register runs over one list after another. -/
theorem crcFrom_append (a b : List Byte) (c : Word) : crcFrom (a ++ b) c = crcFrom b (crcFrom a c) := by
  induction a generalizing c with
  | nil => rfl
  | cons x r ih => simp [ih]

/-- The CRC field reads back as the CRC (R76). -/
theorem leValue_crcField (body : List Byte) : leValue (crcField body) = (crc32 body).toNat := by
  rw [crcField, leValue_le]
  exact Nat.mod_eq_of_lt (crc32 body).isLt

@[simp] theorem crcField_length (body : List Byte) : (crcField body).length = 4 := by simp [crcField]

/-- The CRC's bit step forgets nothing: the generator has a constant term. -/
theorem crcBit_injective : Function.Injective crcBit := by
  have key : ∀ c : Word, (crcBit c).toNat % 2 = if c.msb then 1 else 0 := by
    intro c
    have hx : ∀ x : Word, x.toNat % 2 = (x.getLsbD 0).toNat := by
      intro x; rw [BitVec.getLsbD, Nat.testBit_zero]
      rcases Nat.mod_two_eq_zero_or_one x.toNat with h | h <;> simp [h]
    rw [hx]
    unfold crcBit
    split <;> simp
  intro c d h
  have hm : c.msb = d.msb := by
    have := congrArg (fun w : Word => w.toNat % 2) h
    simp only [key] at this
    cases hc : c.msb <;> cases hd : d.msb <;> simp_all
  have hs : c <<< 1 = d <<< 1 := by
    unfold crcBit at h
    rw [← hm] at h
    split at h
    · simpa [BitVec.xor_assoc] using congrArg (· ^^^ 0x04C11DB7#32) h
    · exact h
  apply BitVec.eq_of_getElem_eq
  intro k hk
  rcases Nat.lt_or_ge k 31 with h31 | h31
  · have := congrArg (fun w : Word => w.getLsbD (k + 1)) hs
    simpa [show k + 1 < 32 by omega] using this
  · obtain rfl : k = 31 := by omega
    simpa [BitVec.msb_eq_getLsbD_last, BitVec.getLsbD_eq_getElem] using hm

theorem crcBits_injective (n : Nat) : Function.Injective (crcBits n) := by
  induction n with
  | zero => exact fun _ _ h => h
  | succ n ih => exact fun _ _ h => crcBit_injective (ih h)

/-- ENCODE's frame when its header registers hold values and its length fits (R80). -/
theorem encodeFrame_ok {p : Params} {t : Table} {c : Command} {payload : List Byte} {a b d e : Byte}
    (ha : headerByte t 0#8 = .ok a) (hb : headerByte t 1#8 = .ok b) (hd : headerByte t 2#8 = .ok d)
    (he : headerByte t 5#8 = .ok e) (hl : 10 + payload.length ≤ 255) :
    encodeFrame p t c payload =
      .ok (([a, b, d, BitVec.ofNat 8 (10 + payload.length), p.cmdCode.code c, e] ++ payload) ++
        crcField ([a, b, d, BitVec.ofNat 8 (10 + payload.length), p.cmdCode.code c, e] ++ payload)) := by
  have hlen : frameLen payload = 10 + payload.length := by unfold frameLen; omega
  unfold encodeFrame
  rw [if_neg (by rw [hlen]; unfold maxFrame; omega), ha, hb, hd, he, hlen]
  rfl

/-- ENCODE on a payload that does not fit (R81). -/
theorem encodeFrame_tooLong {p : Params} {t : Table} {c : Command} {payload : List Byte}
    (hl : 255 < 10 + payload.length) :
    encodeFrame p t c payload = .error (.validation (.frameTooLong (10 + payload.length))) := by
  have hlen : frameLen payload = 10 + payload.length := by unfold frameLen; omega
  unfold encodeFrame
  rw [if_pos (by rw [hlen]; unfold maxFrame; omega), hlen]

/-- The decoder's three ends (R82): a length that differs, a CRC that differs, or the frame. -/
theorem decodeAndValidate_cases (rx : List Byte) (n : Nat) :
    ((n < 10 ∨ rx.length ≠ n) ∧ decodeAndValidate rx n = .error (.lengthMismatch rx.length n)) ∨
    (10 ≤ n ∧ rx.length = n ∧ leValue (rx.drop (rx.length - 4)) ≠ (crc32 (rx.take (rx.length - 4))).toNat ∧
      decodeAndValidate rx n = .error .checksumMismatch) ∨
    (10 ≤ n ∧ rx.length = n ∧ leValue (rx.drop (rx.length - 4)) = (crc32 (rx.take (rx.length - 4))).toNat ∧
      ∃ d, decodeAndValidate rx n = .ok d ∧ d.command = rx.getD 4 0#8 ∧
        d.payload = (rx.take (rx.length - 4)).drop 6) := by
  by_cases h : n < 10 ∨ rx.length ≠ n
  · refine .inl ⟨h, ?_⟩
    unfold decodeAndValidate
    rw [if_pos (by simpa [envelope] using h)]
  · push Not at h
    have hif : ¬ ((decide (n < envelope) || rx.length != n) = true) := by
      simp [envelope, h.2]; omega
    by_cases hc : leValue (rx.drop (rx.length - 4)) = (crc32 (rx.take (rx.length - 4))).toNat
    · refine .inr (.inr ⟨h.1, h.2, hc, ?_⟩)
      unfold decodeAndValidate
      rw [if_neg hif, if_neg (by simpa using hc)]
      exact ⟨_, rfl, rfl, rfl⟩
    · refine .inr (.inl ⟨h.1, h.2, hc, ?_⟩)
      unfold decodeAndValidate
      rw [if_neg hif, if_pos (by simpa using hc)]

end Sys2Proof.Laws
end

