-- ==== Sys2Proof/Laws/Table.lean ====
section
/-! SUPPORT. The register table: reads after writes, the fresh table, and that every table operation keeps the table's form. -/

namespace Sys2Proof.Laws

open Machine Spec

theorem readReg_eq_some {t : Table} {i : Byte} {v : Pattern} :
    readReg t i = some v ↔ t[i.toNat]? = some (some v) := by
  unfold readReg
  split <;> simp_all

theorem isFixed_iff {i : Byte} : isFixed i = true ↔ i = 0#8 ∨ i = 2#8 := by simp [isFixed]

/-- An ordinal is defined exactly when it is below REG_COUNT (R65). -/
theorem regEnc_isSome_iff (p : Params) (i : Byte) : (regEnc p i).isSome = true ↔ i.toNat < p.regCount := by
  simp [regEnc, Params.regCount]

theorem regEnc_eq_none_iff (p : Params) (i : Byte) : regEnc p i = none ↔ p.regCount ≤ i.toNat := by
  simp [regEnc, Params.regCount]

theorem regWidth_of_regEnc {p : Params} {i : Byte} {e : Enc} (h : regEnc p i = some e) : regWidth p i = encWidth e := by
  simp [regWidth, h]

@[simp] theorem writeReg_length (t : Table) (i : Byte) (v : Pattern) : (writeReg t i v).length = t.length := by
  simp [writeReg]

/-- Reading the register just written gives the value. -/
theorem readReg_writeReg_same {t : Table} {i : Byte} (v : Pattern) (h : i.toNat < t.length) :
    readReg (writeReg t i v) i = some v := by
  rw [readReg_eq_some, writeReg, List.getElem?_set_self h]

/-- A write leaves every other register alone. -/
theorem readReg_writeReg_other {t : Table} {i j : Byte} (v : Pattern) (h : j ≠ i) :
    readReg (writeReg t i v) j = readReg t j := by
  have hne : i.toNat ≠ j.toNat := fun e => h (BitVec.eq_of_toNat_eq e.symm)
  unfold readReg writeReg
  rw [List.getElem?_set_ne hne]

/-- A write of a value as wide as its register, to a register that is not fixed, keeps the table's form. -/
theorem tableOk_writeReg {p : Params} {t : Table} {i : Byte} {v : Pattern} (ht : TableOk p t)
    (hf : isFixed i = false) (hw : v.width = 8 * regWidth p i) : TableOk p (writeReg t i v) := by
  have hi : i ≠ 0#8 ∧ i ≠ 2#8 := by simpa [isFixed] using hf
  obtain ⟨hl, hv, h0, h2, h1, h5⟩ := ht
  have hsome : ∀ j : Byte, (readReg t j).isSome = true → (readReg (writeReg t i v) j).isSome = true := by
    intro j hj
    by_cases hji : j = i
    · subst hji
      obtain ⟨x, hx⟩ := Option.isSome_iff_exists.mp hj
      have : j.toNat < t.length := (List.getElem?_eq_some_iff.mp (readReg_eq_some.mp hx)).1
      rw [readReg_writeReg_same v this]; rfl
    · rwa [readReg_writeReg_other v hji]
  refine ⟨by simpa using hl, ?_, ?_, ?_, hsome _ h1, hsome _ h5⟩
  · intro j x hx
    by_cases hji : j = i
    · subst hji
      have hlt : j.toNat < (writeReg t j v).length := (List.getElem?_eq_some_iff.mp (readReg_eq_some.mp hx)).1
      rw [readReg_writeReg_same v (by simpa using hlt)] at hx
      cases hx; exact hw
    · exact hv j x (by rwa [readReg_writeReg_other v hji] at hx)
  · rwa [readReg_writeReg_other v hi.1.symm]
  · rwa [readReg_writeReg_other v hi.2.symm]

/-- Applying pairs of the right widths keeps the table's form (R98, R101). -/
theorem tableOk_writePairs {p : Params} {t : Table} {ps : List (Byte × Pattern)} (ht : TableOk p t)
    (hw : ∀ x ∈ ps, x.2.width = 8 * regWidth p x.1) : TableOk p (writePairs t ps) := by
  induction ps generalizing t with
  | nil => exact ht
  | cons x r ih =>
    obtain ⟨i, v⟩ := x
    rw [writePairs]
    refine ih ?_ fun y hy => hw y (List.mem_cons_of_mem _ hy)
    by_cases hf : isFixed i = true
    · rwa [if_pos hf]
    · rw [if_neg hf]
      exact tableOk_writeReg ht (by simpa using hf) (hw (i, v) List.mem_cons_self)

/-- What the fresh table holds (R28). -/
theorem readReg_freshTable (p : Params) (id i : Byte) :
    readReg (freshTable p id) i =
      if i = 0#8 then some ⟨8, 0x55#8⟩
      else if i = 1#8 then some ⟨8, id⟩
      else if i = 2#8 then some ⟨8, p.productId⟩
      else if i = 5#8 then some ⟨8, p.statusInit⟩
      else none := by
  by_cases hi : i.toNat < 6
  · have : i = 0#8 ∨ i = 1#8 ∨ i = 2#8 ∨ i = 3#8 ∨ i = 4#8 ∨ i = 5#8 := by
      have := i.isLt
      rcases (show i.toNat = 0 ∨ i.toNat = 1 ∨ i.toNat = 2 ∨ i.toNat = 3 ∨ i.toNat = 4 ∨ i.toNat = 5 by omega) with
        h | h | h | h | h | h
      all_goals
        have : i = BitVec.ofNat 8 i.toNat := by simp
        rw [h] at this
        simp [this]
    rcases this with rfl | rfl | rfl | rfl | rfl | rfl <;> rfl
  · have hne : ∀ k, k < 6 → i ≠ BitVec.ofNat 8 k := by
      intro k hk e
      apply hi
      rw [e, BitVec.toNat_ofNat]
      omega
    rw [if_neg (hne 0 (by omega)), if_neg (hne 1 (by omega)), if_neg (hne 2 (by omega)), if_neg (hne 5 (by omega))]
    unfold readReg freshTable
    rw [List.getElem?_append_right (by simp; omega)]
    simp only [List.getElem?_replicate]
    split <;> simp_all

theorem validParams_regCount {p : Params} (hp : p.Valid) : 6 ≤ p.regCount ∧ p.regCount ≤ 256 := by
  refine ⟨?_, hp.1.1⟩
  have h := congrArg List.length hp.1.2
  simp only [List.length_take, List.length_replicate] at h
  unfold Params.regCount
  omega

/-- The six header registers are U8 (R13). -/
theorem regEnc_header {p : Params} (hp : p.Valid) {i : Byte} (hi : i.toNat < 6) : regEnc p i = some .u8 := by
  have h := congrArg (fun l => l[i.toNat]?) hp.1.2
  simp only [List.getElem?_take, List.getElem?_replicate, if_pos hi] at h
  exact h

theorem regWidth_header {p : Params} (hp : p.Valid) {i : Byte} (hi : i.toNat < 6) : regWidth p i = 1 := by
  rw [regWidth_of_regEnc (regEnc_header hp hi)]; rfl

theorem tableOk_freshTable {p : Params} (hp : p.Valid) (id : Byte) : TableOk p (freshTable p id) := by
  have hn := validParams_regCount hp
  refine ⟨?_, ?_, ?_, ?_, ?_, ?_⟩
  · simp [freshTable]; omega
  · intro i v h
    rw [readReg_freshTable] at h
    have hw : ∀ k : Nat, k < 6 → i = BitVec.ofNat 8 k → regWidth p i = 1 := by
      intro k hk e
      exact regWidth_header hp (by rw [e, BitVec.toNat_ofNat]; omega)
    split at h
    · next e => cases h; rw [hw 0 (by omega) e]
    split at h
    · next e => cases h; rw [hw 1 (by omega) e]
    split at h
    · next e => cases h; rw [hw 2 (by omega) e]
    split at h
    · next e => cases h; rw [hw 5 (by omega) e]
    · cases h
  all_goals (rw [readReg_freshTable]; rfl)

/-- The check the host interface runs accepts only register tables. -/
theorem tableOk_of_check {p : Params} {t : Table} (h : tableCheck p t = true) : TableOk p t := by
  simp only [tableCheck, Bool.and_eq_true, beq_iff_eq, List.all_eq_true] at h
  obtain ⟨⟨⟨⟨⟨hl, hv⟩, h0⟩, h2⟩, h1⟩, h5⟩ := h
  refine ⟨hl, ?_, h0, h2, h1, h5⟩
  intro i v hi
  have hget := readReg_eq_some.mp hi
  have hlt : i.toNat < p.regEnc.length := by
    have := (List.getElem?_eq_some_iff.mp hget).1
    unfold Params.regCount at hl; omega
  obtain ⟨e, he⟩ : ∃ e, p.regEnc[i.toNat]? = some e := ⟨_, List.getElem?_eq_getElem hlt⟩
  have hmem : (e, some v) ∈ p.regEnc.zip t := by
    rw [List.mem_iff_getElem?]
    exact ⟨i.toNat, by rw [List.getElem?_zip_eq_some]; exact ⟨he, hget⟩⟩
  have := hv _ hmem
  rw [regWidth_of_regEnc (show regEnc p i = some e from he)]
  simpa [entryOk] using this

/-- The check accepts exactly the register tables, when every ordinal is a byte (R5 `REG_COUNT <= 256`). -/
theorem tableCheck_iff {p : Params} (hp : p.Valid) (t : Table) : tableCheck p t = true ↔ TableOk p t := by
  refine ⟨tableOk_of_check, ?_⟩
  rintro ⟨hl, hv, h0, h2, h1, h5⟩
  simp only [tableCheck, Bool.and_eq_true, beq_iff_eq, List.all_eq_true]
  refine ⟨⟨⟨⟨⟨hl, ?_⟩, h0⟩, h2⟩, h1⟩, h5⟩
  rintro ⟨e, x⟩ hx
  cases x with
  | none => rfl
  | some v =>
    obtain ⟨k, hk⟩ := List.mem_iff_getElem?.mp hx
    obtain ⟨he, ht⟩ := List.getElem?_zip_eq_some.mp hk
    have hn := (validParams_regCount hp).2
    have hlt := (List.getElem?_eq_some_iff.mp he).1
    have hkn : (BitVec.ofNat 8 k).toNat = k := by
      rw [BitVec.toNat_ofNat]
      unfold Params.regCount at hn
      omega
    have hw := hv (BitVec.ofNat 8 k) v (readReg_eq_some.mpr (by rwa [hkn]))
    rw [regWidth_of_regEnc (show regEnc p (BitVec.ofNat 8 k) = some e by rw [regEnc, hkn]; exact he)] at hw
    simpa [entryOk] using hw

/-- Every register of a register table has a defined ordinal. -/
theorem ordinal_lt_of_read {p : Params} {t : Table} (ht : TableOk p t) {i : Byte} {v : Pattern}
    (h : readReg t i = some v) : i.toNat < p.regCount := by
  rw [← ht.1]
  exact (List.getElem?_eq_some_iff.mp (readReg_eq_some.mp h)).1

/-- A header register that holds a value is read as its byte. -/
theorem headerByte_of_isSome {t : Table} {i : Byte} (h : (readReg t i).isSome = true) :
    headerByte t i = .ok (regByte t i) := by
  obtain ⟨v, hv⟩ := Option.isSome_iff_exists.mp h
  simp [headerByte, regByte, regNat, hv]

/-- The four header bytes ENCODE reads from a register table (R80). -/
theorem headerBytes {p : Params} {t : Table} (ht : TableOk p t) :
    headerByte t 0#8 = .ok 0x55#8 ∧ headerByte t 1#8 = .ok (regByte t 1#8) ∧
    headerByte t 2#8 = .ok p.productId ∧ headerByte t 5#8 = .ok (regByte t 5#8) := by
  refine ⟨?_, headerByte_of_isSome ht.2.2.2.2.1, ?_, headerByte_of_isSome ht.2.2.2.2.2⟩
  · simp [headerByte, ht.2.2.1]
  · simp [headerByte, ht.2.2.2.1]

/-- ENCODE on a register table: the frame of R45, or FrameTooLong (R80, R81). -/
theorem encodeFrame_eq {p : Params} {t : Table} (ht : TableOk p t) (c : Command) (payload : List Byte) :
    encodeFrame p t c payload =
      if 255 < 10 + payload.length then .error (.validation (.frameTooLong (10 + payload.length)))
      else .ok (frameFor p t c payload) := by
  split
  · next h => exact encodeFrame_tooLong h
  · next h =>
    obtain ⟨h0, h1, h2, h5⟩ := headerBytes ht
    rw [encodeFrame_ok h0 h1 h2 h5 (by omega)]
    rfl

end Sys2Proof.Laws
end

