-- ==== Sys2Proof/Laws/Operands.lean ====
section
/-! SUPPORT. What each operand check and payload function answers, in the terms claims use: one lemma per function. -/

namespace Sys2Proof.Laws

open Machine Spec

theorem checkIndex_eq (p : Params) (i : Byte) :
    checkIndex p i = if p.regCount ≤ i.toNat then .error (.validation (.indexOutOfRange i)) else .ok () := by
  unfold checkIndex
  split
  · next e h =>
    have : i.toNat < p.regCount := (regEnc_isSome_iff p i).mp (by simp [h])
    rw [if_neg (by omega)]
  · next h => rw [if_pos ((regEnc_eq_none_iff p i).mp h)]; rfl

theorem requireWritable_eq (i : Byte) :
    requireWritable i = if i = 0#8 ∨ i = 2#8 then .error (.validation (.readOnly i)) else .ok () := by
  unfold requireWritable
  by_cases h : isFixed i = true
  · rw [if_pos h, if_pos (isFixed_iff.mp h)]; rfl
  · rw [if_neg h, if_neg (fun e => h (isFixed_iff.mpr e))]

theorem checkValue_eq (p : Params) (i : Byte) (v : Pattern) :
    checkValue p i v = if v.width ≠ 8 * regWidth p i then .error (.validation (.badValue i)) else .ok () := by
  unfold checkValue invalid
  split <;> simp_all

theorem checkDeviceId_eq (id : Byte) :
    checkDeviceId id = if id = 255#8 then .error (.validation (.badDeviceId 255#8)) else .ok () := by
  unfold checkDeviceId invalid
  split <;> simp_all

/-- The unicast check on a register table (R90). -/
theorem requireUnicast_eq {p : Params} {t : Table} (ht : TableOk p t) :
    requireUnicast t =
      if regByte t 1#8 = 255#8 then .error (.validation (.badDeviceId 255#8)) else .ok () := by
  unfold requireUnicast
  rw [(headerBytes ht).2.1]
  exact checkDeviceId_eq _

theorem requireNonempty_eq {α : Type} (l : List α) :
    requireNonempty l = if l.isEmpty then .error (.validation .emptyList) else .ok () := by
  cases l <;> rfl

/-- Ordinals checked in list order: the first that fails gives the failure (R140). -/
theorem checkWritables_eq (p : Params) (is : List Byte) :
    checkWritables p is =
      match is.findSome? (writeProblem p) with
      | some f => .error f
      | none => .ok () := by
  induction is with
  | nil => rfl
  | cons i r ih =>
    rw [checkWritables, checkIndex_eq, requireWritable_eq, List.findSome?_cons, ih]
    unfold writeProblem
    split
    · rfl
    · split <;> rfl

theorem checkIndices_eq (p : Params) (is : List Byte) :
    checkIndices p is =
      match is.findSome? (readProblem p) with
      | some f => .error f
      | none => .ok () := by
  induction is with
  | nil => rfl
  | cons i r ih =>
    rw [checkIndices, checkIndex_eq, List.findSome?_cons, ih]
    unfold readProblem
    split <;> rfl

theorem checkTargets_eq (p : Params) (i : Byte) (ts : List (Byte × Pattern)) :
    checkTargets p i ts =
      match ts.findSome? (targetProblem p i) with
      | some f => .error f
      | none => .ok () := by
  induction ts with
  | nil => rfl
  | cons x r ih =>
    obtain ⟨d, v⟩ := x
    rw [checkTargets, checkDeviceId_eq, checkValue_eq, List.findSome?_cons, ih]
    unfold targetProblem
    split
    · rfl
    · split <;> rfl

/-- Pair serialization: the first ordinal without a value, or PAIR_LIST (R91). -/
theorem pairsFromT_eq (p : Params) (t : Table) (is : List Byte) :
    pairsFromT p t is =
      match is.find? (fun i => (readReg t i).isNone) with
      | some i => .error (.unwrittenRegister i)
      | none => .ok (pairsOf p t is) := by
  induction is with
  | nil => rfl
  | cons i r ih =>
    rw [pairsFromT, List.find?_cons]
    cases h : readReg t i with
    | none => simp
    | some v =>
      simp only [Option.isNone_some, ih]
      cases hr : r.find? (fun i => (readReg t i).isNone) with
      | some j => rfl
      | none => simp [pairsOf, valueField, regNat, h, pure, Except.pure, bind, Except.bind]

theorem targetFields_eq (p : Params) (i : Byte) (ts : List (Byte × Pattern)) :
    i :: targetFields p i ts = syncOf p i ts := by
  unfold syncOf
  congr 1
  induction ts with
  | nil => rfl
  | cons x r ih => obtain ⟨d, v⟩ := x; simp [targetFields, valueField, ih]

theorem pairsOf_length (p : Params) (t : Table) (is : List Byte) : (pairsOf p t is).length = pairsLen p is := by
  simp [pairsOf, pairsLen, List.length_flatMap, Nat.add_comm]

theorem readAckLen_eq (p : Params) (is : List Byte) : readAckLen p is = 10 + pairsLen p is := rfl

theorem syncOf_length (p : Params) (i : Byte) (ts : List (Byte × Pattern)) :
    (syncOf p i ts).length = 1 + ts.length * (1 + regWidth p i) := by
  simp [syncOf, List.length_flatMap, Nat.add_comm]

theorem writePairs_eq (t : Table) (ps : List (Byte × Pattern)) : writePairs t ps = written t ps := by
  induction ps generalizing t with
  | nil => rfl
  | cons x r ih =>
    obtain ⟨i, v⟩ := x
    rw [writePairs, ih, written, written, List.foldl_cons]
    congr 1
    by_cases h : isFixed i = true
    · rw [if_pos h, if_pos (isFixed_iff.mp h)]
    · rw [if_neg h, if_neg (fun e => h (isFixed_iff.mpr e))]; rfl

/-- Each pair's value has the width of the pair's register (R99). -/
theorem parsePairsAt_width {p : Params} {fuel k : Nat} {b : List Byte} {ps : List (Byte × Pattern)}
    (h : parsePairsAt p fuel k b = .ok ps) : ∀ x ∈ ps, x.2.width = 8 * regWidth p x.1 := by
  induction fuel generalizing k b ps with
  | zero =>
    cases b with
    | nil => cases h; simp
    | cons _ _ => cases h
  | succ fuel ih =>
    cases b with
    | nil => cases h; simp
    | cons i rest =>
      rw [parsePairsAt] at h
      split at h
      · cases h
      · next e he =>
        split at h
        · cases h
        · next hlen =>
          cases hm : parsePairsAt p fuel (k + 1 + encWidth e) (rest.drop (encWidth e)) with
          | error f => rw [hm] at h; cases h
          | ok more =>
            rw [hm] at h
            cases h
            intro x hx
            rcases List.mem_cons.mp hx with rfl | hx
            · simp [regWidth_of_regEnc he]; omega
            · exact ih hm x hx

/-- Every pattern that APPLY_ACK writes fits its register (R99). -/
theorem parsePairs_width {p : Params} {b : List Byte} {ps : List (Byte × Pattern)} (h : parsePairs p b = .ok ps) :
    ∀ x ∈ ps, x.2.width = 8 * regWidth p x.1 := parsePairsAt_width h

/-- Applying an acknowledgment keeps the table's form (R98, R101). -/
theorem tableOk_applyAck {p : Params} {t u : Table} {d : DecodedFrame} (ht : TableOk p t)
    (h : applyAck p t d = .ok u) : TableOk p u := by
  unfold applyAck at h
  cases hp : parsePairs p d.payload with
  | error f => rw [hp] at h; cases h
  | ok ps =>
    rw [hp] at h
    cases h
    exact tableOk_writePairs ht (parsePairs_width hp)

end Sys2Proof.Laws
end

