-- ==== Sys2Proof/Laws/State.lean ====
section
/-! SUPPORT. What each shared update of the state leaves in each field: later proofs unfold no record update. -/

namespace Sys2Proof.Laws

open Machine

@[simp] theorem raiseFailure_params (f : Failure) (s : State) : (raiseFailure f s).params = s.params := rfl
@[simp] theorem raiseFailure_table (f : Failure) (s : State) : (raiseFailure f s).table = s.table := rfl
@[simp] theorem raiseFailure_phase (f : Failure) (s : State) : (raiseFailure f s).phase = s.phase := rfl
@[simp] theorem raiseFailure_ackLatch (f : Failure) (s : State) : (raiseFailure f s).ackLatch = s.ackLatch := rfl
@[simp] theorem raiseFailure_result (f : Failure) (s : State) : (raiseFailure f s).result = .failed f := rfl
@[simp] theorem raiseFailure_faultMark (f : Failure) (s : State) : (raiseFailure f s).faultMark = markFault f s.faultMark := rfl
@[simp] theorem raiseFailure_settlePending (f : Failure) (s : State) : (raiseFailure f s).settlePending = s.settlePending := rfl
@[simp] theorem raiseFailure_baud (f : Failure) (s : State) : (raiseFailure f s).baud = s.baud := rfl
@[simp] theorem raiseFailure_bus (f : Failure) (s : State) : (raiseFailure f s).bus = s.bus := rfl
@[simp] theorem raiseFailure_pending (f : Failure) (s : State) : (raiseFailure f s).pending = s.pending := rfl
@[simp] theorem raiseFailure_answers (f : Failure) (s : State) : (raiseFailure f s).answers = s.answers := rfl
@[simp] theorem raiseFailure_draws (f : Failure) (s : State) : (raiseFailure f s).draws = s.draws := rfl

@[simp] theorem rejectCommand_params (f : Failure) (s : State) : (rejectCommand f s).params = s.params := rfl
@[simp] theorem rejectCommand_table (f : Failure) (s : State) : (rejectCommand f s).table = s.table := rfl
@[simp] theorem rejectCommand_phase (f : Failure) (s : State) : (rejectCommand f s).phase = .rejected := rfl
@[simp] theorem rejectCommand_ackLatch (f : Failure) (s : State) : (rejectCommand f s).ackLatch = s.ackLatch := rfl
@[simp] theorem rejectCommand_result (f : Failure) (s : State) : (rejectCommand f s).result = .failed f := rfl
@[simp] theorem rejectCommand_faultMark (f : Failure) (s : State) : (rejectCommand f s).faultMark = markFault f s.faultMark := rfl
@[simp] theorem rejectCommand_settlePending (f : Failure) (s : State) : (rejectCommand f s).settlePending = s.settlePending := rfl
@[simp] theorem rejectCommand_baud (f : Failure) (s : State) : (rejectCommand f s).baud = s.baud := rfl
@[simp] theorem rejectCommand_bus (f : Failure) (s : State) : (rejectCommand f s).bus = s.bus := rfl
@[simp] theorem rejectCommand_pending (f : Failure) (s : State) : (rejectCommand f s).pending = s.pending := rfl
@[simp] theorem rejectCommand_answers (f : Failure) (s : State) : (rejectCommand f s).answers = s.answers := rfl
@[simp] theorem rejectCommand_draws (f : Failure) (s : State) : (rejectCommand f s).draws = s.draws := rfl

@[simp] theorem raiseBusy_params (op : HostOp) (s : State) : (raiseBusy op s).params = s.params := rfl
@[simp] theorem raiseBusy_table (op : HostOp) (s : State) : (raiseBusy op s).table = s.table := rfl
@[simp] theorem raiseBusy_phase (op : HostOp) (s : State) : (raiseBusy op s).phase = s.phase := rfl
@[simp] theorem raiseBusy_ackLatch (op : HostOp) (s : State) : (raiseBusy op s).ackLatch = s.ackLatch := rfl
@[simp] theorem raiseBusy_result (op : HostOp) (s : State) : (raiseBusy op s).result = .failed (.busy op) := rfl
@[simp] theorem raiseBusy_faultMark (op : HostOp) (s : State) : (raiseBusy op s).faultMark = .set (.busy op) := rfl
@[simp] theorem raiseBusy_settlePending (op : HostOp) (s : State) : (raiseBusy op s).settlePending = s.settlePending := rfl
@[simp] theorem raiseBusy_baud (op : HostOp) (s : State) : (raiseBusy op s).baud = s.baud := rfl
@[simp] theorem raiseBusy_bus (op : HostOp) (s : State) : (raiseBusy op s).bus = s.bus := rfl
@[simp] theorem raiseBusy_pending (op : HostOp) (s : State) : (raiseBusy op s).pending = s.pending := rfl
@[simp] theorem raiseBusy_answers (op : HostOp) (s : State) : (raiseBusy op s).answers = s.answers := rfl
@[simp] theorem raiseBusy_draws (op : HostOp) (s : State) : (raiseBusy op s).draws = s.draws := rfl

@[simp] theorem completeCommand_params (d : Data) (s : State) : (completeCommand d s).params = s.params := rfl
@[simp] theorem completeCommand_table (d : Data) (s : State) : (completeCommand d s).table = s.table := rfl
@[simp] theorem completeCommand_phase (d : Data) (s : State) : (completeCommand d s).phase = .applied := rfl
@[simp] theorem completeCommand_ackLatch (d : Data) (s : State) : (completeCommand d s).ackLatch = s.ackLatch := rfl
@[simp] theorem completeCommand_result (d : Data) (s : State) : (completeCommand d s).result = .ok d := rfl
@[simp] theorem completeCommand_faultMark (d : Data) (s : State) : (completeCommand d s).faultMark = s.faultMark := rfl
@[simp] theorem completeCommand_settlePending (d : Data) (s : State) : (completeCommand d s).settlePending = s.settlePending := rfl
@[simp] theorem completeCommand_baud (d : Data) (s : State) : (completeCommand d s).baud = s.baud := rfl
@[simp] theorem completeCommand_bus (d : Data) (s : State) : (completeCommand d s).bus = s.bus := rfl
@[simp] theorem completeCommand_pending (d : Data) (s : State) : (completeCommand d s).pending = s.pending := rfl
@[simp] theorem completeCommand_answers (d : Data) (s : State) : (completeCommand d s).answers = s.answers := rfl
@[simp] theorem completeCommand_draws (d : Data) (s : State) : (completeCommand d s).draws = s.draws := rfl

@[simp] theorem transmit_params (b : Built) (s : State) : (transmit b s).params = s.params := rfl
@[simp] theorem transmit_table (b : Built) (s : State) : (transmit b s).table = s.table := rfl
@[simp] theorem transmit_phase (b : Built) (s : State) : (transmit b s).phase = .frameSent := rfl
@[simp] theorem transmit_ackLatch (b : Built) (s : State) : (transmit b s).ackLatch = b.2 := rfl
@[simp] theorem transmit_result (b : Built) (s : State) : (transmit b s).result = s.result := rfl
@[simp] theorem transmit_faultMark (b : Built) (s : State) : (transmit b s).faultMark = s.faultMark := rfl
@[simp] theorem transmit_settlePending (b : Built) (s : State) : (transmit b s).settlePending = true := rfl
@[simp] theorem transmit_baud (b : Built) (s : State) : (transmit b s).baud = s.baud := rfl
@[simp] theorem transmit_bus (b : Built) (s : State) : (transmit b s).bus = s.bus ++ [.write b.1] := rfl
@[simp] theorem transmit_pending (b : Built) (s : State) : (transmit b s).pending = s.pending := rfl
@[simp] theorem transmit_answers (b : Built) (s : State) : (transmit b s).answers = s.answers := rfl
@[simp] theorem transmit_draws (b : Built) (s : State) : (transmit b s).draws = s.draws := rfl

@[simp] theorem settle_params (s : State) : (settle s).params = s.params := rfl
@[simp] theorem settle_table (s : State) : (settle s).table = s.table := rfl
@[simp] theorem settle_phase (s : State) : (settle s).phase = s.phase := rfl
@[simp] theorem settle_ackLatch (s : State) : (settle s).ackLatch = s.ackLatch := rfl
@[simp] theorem settle_result (s : State) : (settle s).result = s.result := rfl
@[simp] theorem settle_faultMark (s : State) : (settle s).faultMark = s.faultMark := rfl
@[simp] theorem settle_settlePending (s : State) : (settle s).settlePending = false := rfl
@[simp] theorem settle_baud (s : State) : (settle s).baud = s.baud := rfl
@[simp] theorem settle_bus (s : State) : (settle s).bus = s.bus ++ [.sleep 10 s.baud] := rfl
@[simp] theorem settle_pending (s : State) : (settle s).pending = s.pending := rfl
@[simp] theorem settle_answers (s : State) : (settle s).answers = s.answers := rfl
@[simp] theorem settle_draws (s : State) : (settle s).draws = s.draws := rfl

@[simp] theorem boundedRead_params (n : Nat) (s : State) : (boundedRead n s).params = s.params := rfl
@[simp] theorem boundedRead_table (n : Nat) (s : State) : (boundedRead n s).table = s.table := rfl
@[simp] theorem boundedRead_phase (n : Nat) (s : State) : (boundedRead n s).phase = s.phase := rfl
@[simp] theorem boundedRead_ackLatch (n : Nat) (s : State) : (boundedRead n s).ackLatch = s.ackLatch := rfl
@[simp] theorem boundedRead_result (n : Nat) (s : State) : (boundedRead n s).result = s.result := rfl
@[simp] theorem boundedRead_faultMark (n : Nat) (s : State) : (boundedRead n s).faultMark = s.faultMark := rfl
@[simp] theorem boundedRead_settlePending (n : Nat) (s : State) : (boundedRead n s).settlePending = s.settlePending := rfl
@[simp] theorem boundedRead_baud (n : Nat) (s : State) : (boundedRead n s).baud = s.baud := rfl
@[simp] theorem boundedRead_bus (n : Nat) (s : State) : (boundedRead n s).bus = s.bus ++ [.read n (rxBytes n s)] := rfl
@[simp] theorem boundedRead_pending (n : Nat) (s : State) : (boundedRead n s).pending = s.pending := rfl
@[simp] theorem boundedRead_answers (n : Nat) (s : State) : (boundedRead n s).answers = s.answers.tail := rfl
@[simp] theorem boundedRead_draws (n : Nat) (s : State) : (boundedRead n s).draws = s.draws + 1 := rfl

/-- Which answer the environment gives depends on the queued answers and the count of draws alone. -/
theorem nextAnswer_congr {s t : State} (h : s.answers = t.answers) (h' : s.draws = t.draws) :
    nextAnswer s = nextAnswer t := by
  unfold nextAnswer; rw [h, h']

theorem rxBytes_congr {s t : State} (n : Nat) (h : s.answers = t.answers) (h' : s.draws = t.draws) :
    rxBytes n s = rxBytes n t := by
  unfold rxBytes; rw [nextAnswer_congr h h']

@[simp] theorem rxBytes_completeCommand (n : Nat) (d : Data) (s : State) : rxBytes n (completeCommand d s) = rxBytes n s := rfl
@[simp] theorem rxBytes_transmit (n : Nat) (b : Built) (s : State) : rxBytes n (transmit b s) = rxBytes n s := rfl
@[simp] theorem rxBytes_settle (n : Nat) (s : State) : rxBytes n (settle s) = rxBytes n s := rfl

/-- A bounded read returns at most its bound (R155). -/
theorem rxBytes_length_le (n : Nat) (s : State) : (rxBytes n s).length ≤ n := by
  unfold rxBytes; exact List.length_take_le _ _

end Sys2Proof.Laws
end

