-- ==== Sys2Proof/Laws/Ops.lean ====
section
/-! SUPPORT. What each shared operation can do, said once: the ends of a transaction, of its parts and of a local operation. -/

namespace Sys2Proof.Laws

open Machine Spec

theorem isFault_iff (f : Failure) : isFault f = true ↔ failureCode f = 6 ∨ failureCode f = 7 := by
  cases f <;> simp [isFault, failureCode]

theorem markFault_eq (f : Failure) (m : FaultMark) :
    markFault f m = if failureCode f = 6 ∨ failureCode f = 7 then .set f else m := by
  unfold markFault
  by_cases h : isFault f = true
  · rw [if_pos h, if_pos ((isFault_iff f).mp h)]
  · rw [if_neg h, if_neg (fun e => h ((isFault_iff f).mpr e))]

theorem raiseFailure_eq (f : Failure) (s : State) : raiseFailure f s = failed f s := by
  simp [raiseFailure, failed, markFault_eq]

theorem rejectCommand_eq (f : Failure) (s : State) : rejectCommand f s = rejected f s := by
  simp [rejectCommand, rejected, raiseFailure_eq]

theorem inFlight_false_of_ready {s : State} (h : Ready s) : inFlight s.phase = false := by
  obtain ⟨h1, h2⟩ := h
  cases hp : s.phase <;> simp_all [inFlight]

theorem ready_of_inFlight_false {s : State} (h : inFlight s.phase = false) : Ready s := by
  unfold Ready
  cases hp : s.phase <;> simp_all [inFlight]

/-- A transaction issued between transactions: rejected with its build's failure, or run (R153). -/
theorem transact_of_ready {s : State} (h : Ready s) (i : Instr) (r : Except Failure Built) :
    transact i r s =
      match r with
      | .error f => rejected f s
      | .ok b => runBuilt b s := by
  unfold transact
  rw [if_neg (by simp [inFlight_false_of_ready h])]
  cases r <;> simp [rejectCommand_eq]

/-- A transaction issued while one is in flight: Busy (R138). -/
theorem transact_of_inFlight {s : State} (h : inFlight s.phase = true) (i : Instr) (r : Except Failure Built) :
    transact i r s = failed (.busy (.command i)) s := by
  unfold transact raiseBusy
  rw [if_pos h, raiseFailure_eq]

/-- A built transaction without acknowledgment (R153). -/
theorem runBuilt_none (f : List Byte) (s : State) : runBuilt (f, none) s = sentOnly f s := by
  simp [runBuilt, completeCommand, settle, transmit, sentOnly]

theorem decodeAndValidate_eq (rx : List Byte) (n : Nat) :
    decodeAndValidate rx n =
      if n < 10 ∨ rx.length ≠ n then .error (.lengthMismatch rx.length n)
      else if ¬ CrcMatches rx then .error .checksumMismatch
      else .ok (frameOf rx) := by
  rcases decodeAndValidate_cases rx n with ⟨h, he⟩ | ⟨h1, h2, hc, he⟩ | ⟨h1, h2, hc, -, he, -, -⟩
  · rw [he, if_pos h]
  · rw [he, if_neg (by omega), if_pos hc]
  · rw [if_neg (by omega), if_neg (by simpa [CrcMatches] using hc)]
    unfold decodeAndValidate
    rw [if_neg (by simp [envelope, h2]; omega), if_neg (by simpa using hc)]
    simp only [frameOf, Except.ok.injEq, DecodedFrame.mk.injEq]
    refine ⟨rfl, rfl, rfl, rfl, rfl, rfl, ?_⟩
    rw [List.drop_take]; congr 1

/-- The receive step's ends (R153, R141), with the latch used up. -/
theorem receive_eq (a : AckPrediction) (rx : List Byte) (s : State) :
    receive a rx s =
      if a.len < 10 ∨ rx.length ≠ a.len then rejected (.lengthMismatch rx.length a.len) { s with ackLatch := none }
      else if ¬ CrcMatches rx then rejected .checksumMismatch { s with ackLatch := none }
      else
        match a.kind with
        | .readData => applyPairs (frameOf rx) { s with ackLatch := none }
        | .noData => acknowledged (frameOf rx) { s with ackLatch := none }
        | .raw => acknowledged (frameOf rx) { s with ackLatch := none } := by
  unfold receive
  rw [decodeAndValidate_eq]
  by_cases h : a.len < 10 ∨ rx.length ≠ a.len
  · simp only [if_pos h, rejectCommand_eq]
  · simp only [if_neg h]
    by_cases hc : ¬ CrcMatches rx
    · simp only [if_pos hc, rejectCommand_eq]
    · simp only [if_neg hc]
      cases a.kind with
      | noData => rfl
      | raw => rfl
      | readData =>
        simp only [applyAck, applyPairs]
        cases parsePairs s.params (frameOf rx).payload with
        | error f => exact rejectCommand_eq _ _
        | ok ps => simp [bind, Except.bind, pure, Except.pure, completeCommand, writePairs_eq]

/-- A built transaction with an acknowledgment (R153). -/
theorem runBuilt_some (f : List Byte) (a : AckPrediction) (h : 10 ≤ a.len) (s : State) :
    runBuilt (f, some a) s =
      endsWith f a.len
        (match a.kind with
          | .readData => applyPairs
          | .noData => acknowledged
          | .raw => acknowledged) s := by
  have hu : { boundedRead a.len { settle (transmit (f, some a) s) with phase := .awaitingAck } with ackLatch := none } =
      { afterRead f a.len s with phase := .awaitingAck } := by
    simp [boundedRead, settle, transmit, afterRead, rxBytes, answer, nextAnswer]
  have hr : rxBytes a.len (settle (transmit (f, some a) s)) = answer a.len s := rfl
  have hend : ∀ g, rejected g { afterRead f a.len s with phase := .awaitingAck } = rejected g (afterRead f a.len s) := by
    intro g; simp [rejected, failed]
  show receive a (rxBytes a.len (settle (transmit (f, some a) s))) _ = _
  rw [receive_eq, hu, hr]
  unfold endsWith
  simp only [hend]
  by_cases hl : (answer a.len s).length ≠ a.len
  · rw [if_pos (.inr hl), if_pos hl]
  · rw [if_neg (by omega), if_neg hl]
    by_cases hc : ¬ CrcMatches (answer a.len s)
    · rw [if_pos hc, if_pos hc]
    · rw [if_neg hc, if_neg hc]
      cases a.kind with
      | noData => simp [acknowledged]
      | raw => simp [acknowledged]
      | readData =>
        simp only [applyPairs]
        split <;> simp_all [rejected, failed]

/-- A local operation issued between transactions (R72). -/
theorem localOp_of_ready {s : State} (h : Ready s) (op : HostOp) (r : Except Failure (Table × Data)) :
    localOp op r s =
      match r with
      | .error f => failed f s
      | .ok td => { s with table := td.1, result := .ok td.2 } := by
  unfold localOp
  rw [if_neg (by simp [inFlight_false_of_ready h])]
  cases r <;> simp [raiseFailure_eq]

/-- A local operation issued while a transaction is in flight: Busy (R138). -/
theorem localOp_of_inFlight {s : State} (h : inFlight s.phase = true) (op : HostOp)
    (r : Except Failure (Table × Data)) : localOp op r s = failed (.busy op) s := by
  unfold localOp raiseBusy
  rw [if_pos h, raiseFailure_eq]

/-- Every command is one transaction of its build (R153). -/
theorem exec_eq_transact (i : Instr) (s : State) : exec i s = .next (transact i (build s.params s.table i) s) := by
  cases i <;> rfl

/-- A GET issued between transactions, of a register whose ordinal is defined: its value or its fault (R68). -/
theorem opGet_of_ready {s : State} (h : Ready s) {i : Byte} (hi : i.toNat < s.params.regCount) :
    opGet i s =
      match readReg s.table i with
      | some v => { s with result := .ok (.value v) }
      | none => failed (.unwrittenRegister i) s := by
  unfold opGet getResult
  rw [localOp_of_ready h, checkIndex_eq, if_neg (by omega)]
  cases hv : readReg s.table i <;> simp [bind, Except.bind, pure, Except.pure]

/-- The GETs of `get_variables` are the operations GET one after another. -/
theorem execOps_gets (is : List Byte) (s : State) : execOps (is.map .get) s = .next (getEach is s).2 := by
  induction is generalizing s with
  | nil => rfl
  | cons i r ih => exact ih (opGet i s)

end Sys2Proof.Laws
end

