-- ==== Sys2Proof/Laws/PerInstr.lean ====
section
/-! SUPPORT. A statement about every command as syntax, one lemma a constructor: frame byte 4 of its encoding is its command
byte (R50). -/

namespace Sys2Proof.Laws

open Machine

/-- Frame byte 4 of a laid-out frame (R45). -/
theorem layout_command {p : Params} {t : Table} {c : Command} {payload f : List Byte}
    (h : layout p t c payload = some f) : f[4]? = some (p.cmdCode.code c) := by
  unfold layout at h
  split at h
  · cases h; rfl
  · cases h

/-- Frame byte 4 of an encoded command (R50). -/
theorem encode_command {p : Params} {t : Table} {i : Instr} {f : List Byte} (h : encode p t i = some f) :
    f[4]? = some (p.cmdCode.code (commandOf i)) := by
  unfold encode at h
  split at h
  · split at h
    · exact layout_command h
    · cases h
  · cases h

/-- The command's request frame carries its command byte in frame byte 4 (R50). -/
def CommandByte.Statement (i : Instr) : Prop :=
  ∀ (p : Params) (t : Table) (f : List Byte), encode p t i = some f → f[4]? = some (p.cmdCode.code (commandOf i))

theorem CommandByte.ping : CommandByte.Statement .ping := fun _ _ _ h => encode_command h
theorem CommandByte.write (ordinals : List Byte) : CommandByte.Statement (.write ordinals) := fun _ _ _ h => encode_command h
theorem CommandByte.read (ordinals : List Byte) : CommandByte.Statement (.read ordinals) := fun _ _ _ h => encode_command h
theorem CommandByte.eepromWrite : CommandByte.Statement .eepromWrite := fun _ _ _ h => encode_command h
theorem CommandByte.reboot : CommandByte.Statement .reboot := fun _ _ _ h => encode_command h
theorem CommandByte.hardReset : CommandByte.Statement .hardReset := fun _ _ _ h => encode_command h
theorem CommandByte.enterBootloader : CommandByte.Statement .enterBootloader := fun _ _ _ h => encode_command h
theorem CommandByte.scanSensors : CommandByte.Statement .scanSensors := fun _ _ _ h => encode_command h
theorem CommandByte.resetEncoder : CommandByte.Statement .resetEncoder := fun _ _ _ h => encode_command h
theorem CommandByte.syncWrite (ordinal : Byte) (targets : List (Byte × Pattern)) :
    CommandByte.Statement (.syncWrite ordinal targets) := fun _ _ _ h => encode_command h
theorem CommandByte.syncRead : CommandByte.Statement .syncRead := fun _ _ _ h => encode_command h
theorem CommandByte.bulkWrite : CommandByte.Statement .bulkWrite := fun _ _ _ h => encode_command h
theorem CommandByte.bulkRead : CommandByte.Statement .bulkRead := fun _ _ _ h => encode_command h
theorem CommandByte.writeAck (ordinals : List Byte) : CommandByte.Statement (.writeAck ordinals) :=
  fun _ _ _ h => encode_command h
theorem CommandByte.eepromWriteAck : CommandByte.Statement .eepromWriteAck := fun _ _ _ h => encode_command h
theorem CommandByte.updateId (newId : Byte) : CommandByte.Statement (.updateId newId) := fun _ _ _ h => encode_command h

end Sys2Proof.Laws
end

