-- ==== Sys2Proof/Tests/Slice0.lean ====
section
/-! SUPPORT. Small tests with expected values from 95_test_vectors.md (each comment names its vector), the refusals of the
well-formedness checks, and a witness for the hypotheses of each statement. -/

namespace Sys2Proof.Tests

open Machine Spec Laws

/-! ## Small states -/

/-- The table right after ATTACH 3. -/
def dev3 : Table := freshTable Params.tv 3

/-- Device 3's table with one register set. -/
def dev3With (i : Byte) (v : Pattern) : Table := writeReg dev3 i v

/-- The block after reset with this table and these answers to come. -/
def demo (t : Table) (answers : List (List Byte)) : State := { State.reset with table := t, answers := answers }

/-- The block while an acknowledgment of device 3 is awaited. -/
def awaiting (a : AckPrediction) (answers : List (List Byte)) : State :=
  { demo dev3 answers with phase := .awaitingAck, ackLatch := some a }

/-- The block while a frame's settle interval pends. -/
def settling (a : Option AckPrediction) : State :=
  { demo dev3 [] with phase := .frameSent, ackLatch := a, settlePending := true }

/-- One view of the next state, when there is one. -/
def after {α : Type} (o : Host.Outcome State Machine.Fault Refusal) (view : State → α) : Option α :=
  match o with
  | .next t => some (view t)
  | .fault _ => none
  | .refused _ => none

/-- What a host call returned, when it came to an end. -/
def returned {α : Type} (o : Host.Outcome (α × State) Machine.Fault Refusal) : Option α :=
  match o with
  | .next x => some x.1
  | .fault _ => none
  | .refused _ => none

/-- PHASE, RESULT's code and the transport's calls. -/
def report (t : State) : Phase × Nat × List BusEvent := (t.phase, resultCode t.result, t.bus)

/-- PHASE, RESULT and the transport's calls: a failure with its information. -/
def trouble (t : State) : Phase × Machine.Result × List BusEvent := (t.phase, t.result, t.bus)

/-! ## Frames of the vectors -/

def pingFrame : List Byte := [0x55, 0x03, 0xBA, 0x0A, 0x00, 0x00, 0x52, 0x2E, 0xBE, 0x03]
def w1Request : List Byte := [0x55, 0x03, 0xBA, 0x0C, 0x02, 0x00, 0x06, 0x07, 0x44, 0xF9, 0x6C, 0x28]
def w1Ack : List Byte :=
  [0x55, 0x03, 0xBA, 0x14, 0x02, 0x00, 0x06, 0x02, 0x00, 0x01, 0x00, 0x07, 0x10, 0x00, 0x02, 0x00, 0xDF, 0x3B, 0x53, 0xEB]
def writeFrame : List Byte := [0x55, 0x03, 0xBA, 0x0D, 0x01, 0x00, 0x09, 0x34, 0x12, 0xE2, 0x8B, 0xA9, 0x1E]
def writeAckFrame : List Byte := [0x55, 0x03, 0xBA, 0x0D, 0x81, 0x00, 0x09, 0x34, 0x12, 0x5E, 0x8D, 0x3D, 0x13]
def readFrame : List Byte := [0x55, 0x03, 0xBA, 0x0D, 0x02, 0x00, 0x0D, 0x0E, 0x0B, 0x7E, 0xCA, 0x4C, 0xB6]
def eepromFrame : List Byte := [0x55, 0x03, 0xBA, 0x0A, 0x03, 0x00, 0x81, 0x71, 0x55, 0x71]
def rebootFrame : List Byte := [0x55, 0x03, 0xBA, 0x0A, 0x05, 0x00, 0x27, 0xCE, 0x83, 0x94]
def hardResetFrame : List Byte := [0x55, 0x03, 0xBA, 0x0A, 0x06, 0x00, 0xF4, 0x91, 0x68, 0xE6]
def bootloaderFrame : List Byte := [0x55, 0x03, 0xBA, 0x0A, 0x07, 0x00, 0x28, 0x50, 0x71, 0x34]
def scanFrame : List Byte := [0x55, 0x03, 0xBA, 0x0A, 0x0B, 0x00, 0xD3, 0x32, 0x1D, 0xFB]
def resetEncoderFrame : List Byte := [0x55, 0x03, 0xBA, 0x0A, 0x0C, 0x00, 0xA9, 0x4C, 0xD2, 0xCC]
def eepromAckFrame : List Byte := [0x55, 0x03, 0xBA, 0x0A, 0x83, 0x00, 0x19, 0xA9, 0xD9, 0xF3]
def updateFrame : List Byte := [0x55, 0x03, 0xBA, 0x0C, 0x01, 0x00, 0x01, 0x07, 0x50, 0x35, 0xD4, 0x7F]
def syncFrame : List Byte :=
  [0x55, 0xFF, 0xBA, 0x15, 0x40, 0x00, 0x0A, 0x01, 0xFB, 0xFF, 0xFF, 0xFF, 0x02, 0x64, 0x00, 0x00, 0x00, 0x54, 0x8F, 0x75, 0xDB]

/-! ## CRC (section 2) -/

/-- CRC-1, CRC-2, CRC-4, CRC-7. -/
theorem test_crc : crc32 [0x31, 0x32, 0x33, 0x34, 0x35, 0x36, 0x37, 0x38, 0x39] = 0x0376E6E7 ∧
    crc32 [] = 0xFFFFFFFF ∧ crc32 [0x00] = 0x4E08BFB4 ∧ crc32 [0x55] = 0x215A7FD8 := by decide

/-- CRC-5, CRC-6. -/
theorem test_crc_frames : crc32 pingFrame = 0xE53D598A ∧ crc32 w1Ack = 0x0E68F03B := by decide

/-! ## The register table (section 3) -/

/-- RT-1: nine of the registers hold no value. -/
theorem test_attach : after (execOp (.attach 3) State.reset) State.table =
    some ([some ⟨8, 0x55⟩, some ⟨8, 3⟩, some ⟨8, 0xBA⟩, none, none, some ⟨8, 0⟩] ++ List.replicate 9 none) := by decide

/-- RT-17. -/
theorem test_attach_broadcast : after (execOp (.attach 255) State.reset) trouble =
    some (.idle, .failed (.validation (.badDeviceId 255)), []) := by decide

/-- RT-6: SET 9, then GET 9. -/
theorem test_set_get : after (execOps [.set 9 ⟨16, 0x1234⟩, .get 9] (demo dev3 [])) State.result =
    some (.ok (.value ⟨16, 0x1234⟩)) := by decide

/-- RT-12, RT-13: the order of SET's checks. -/
theorem test_set_checks :
    after (execOp (.set 15 ⟨16, 0⟩) (demo dev3 [])) trouble =
      some (.idle, .failed (.validation (.indexOutOfRange 15)), []) ∧
    after (execOp (.set 0 ⟨16, 0⟩) (demo dev3 [])) trouble = some (.idle, .failed (.validation (.readOnly 0)), []) := by
  decide

/-- RT-5: GET of a register with no value is a fault. -/
theorem test_get_unwritten : after (execOp (.get 6) (demo dev3 [])) (fun t => (t.result, t.faultMark)) =
    some (.failed (.unwrittenRegister 6), .set (.unwrittenRegister 6)) := by decide

/-- RT-14, RT-16. -/
theorem test_byteWidth : after (execOp (.byteWidth 9) (demo dev3 [])) State.result = some (.ok (.width 2)) ∧
    after (execOp (.byteWidth 200) (demo dev3 [])) State.result = some (.failed (.validation (.indexOutOfRange 200))) := by
  decide

/-- RT-15. -/
theorem test_encoding : after (execOp (.encoding 11) (demo dev3 [])) State.result = some (.ok (.encoding .f32)) ∧
    after (execOp (.encoding 13) (demo dev3 [])) State.result = some (.ok (.encoding .i16)) := by decide

/-- RT-7, P3: host numbers -5 and -100 of I32 patterns. -/
theorem test_hostNumber : hostNumber .i32 ⟨32, 0xFFFFFFFB⟩ = .int (-5) ∧ hostNumber .i32 ⟨32, 0xFFFFFF9C⟩ = .int (-100) := by
  decide

/-- W1 with R105: `get_variables` of both version registers returns both values; unanswered, the absent result. -/
theorem test_getVariables :
    returned (callGetVariables [6, 7] (demo dev3 [w1Ack])) =
      some (some [.ok (.value ⟨32, 0x00010002⟩), .ok (.value ⟨32, 0x00020010⟩)]) ∧
    returned (callGetVariables [6, 7] (demo dev3 [[]])) = some none := by decide

/-! ## The codec (section 4) -/

/-- ENC-1, ENC-5, ENC-6. -/
theorem test_encodeFrame : encodeFrame Params.tv dev3 .ping [] = .ok pingFrame ∧
    encodeFrame Params.tv (dev3With 5 ⟨8, 0x7E⟩) .ping [] =
      .ok [0x55, 0x03, 0xBA, 0x0A, 0x00, 0x7E, 0xBF, 0x93, 0x84, 0xDF] ∧
    encodeFrame Params.tv (dev3With 1 ⟨8, 9⟩) .ping [] =
      .ok [0x55, 0x09, 0xBA, 0x0A, 0x00, 0x00, 0x4E, 0xE6, 0x4D, 0xD0] := by decide

/-- ENC-2, ENC-3. -/
theorem test_encodeFrame_longest :
    (encodeFrame Params.tv dev3 .write (List.replicate 245 0)).toOption.map List.length = some 255 ∧
    encodeFrame Params.tv dev3 .write (List.replicate 246 0) = .error (.validation (.frameTooLong 256)) := by decide +kernel

/-- DEC-2, DEC-4, DEC-7. -/
theorem test_decode_errors : decodeAndValidate (pingFrame.take 9) 10 = .error (.lengthMismatch 9 10) ∧
    decodeAndValidate (pingFrame.set 6 0x53) 10 = .error .checksumMismatch ∧
    decodeAndValidate (pingFrame.take 9) 9 = .error (.lengthMismatch 9 9) := by decide

/-- DEC-6: no header byte is checked. -/
theorem test_decode_no_header_check :
    decodeAndValidate [0xAA, 0x09, 0x11, 0x0A, 0x77, 0x42, 0xFB, 0x60, 0x75, 0x4D] 10 =
      .ok { marker := 0xAA, device := 0x09, product := 0x11, size := 0x0A, command := 0x77, status := 0x42, payload := [] } := by
  decide

/-! ## Well-formedness: a term each check refuses -/

theorem test_wf_accepts : WellFormed Params.tv (.write [9, 12, 12]) = true ∧ WellFormed Params.tv (.read [0, 2]) = true ∧
    WellFormed Params.tv (.syncWrite 10 [(1, ⟨32, 5⟩)]) = true ∧ WellFormed Params.tv (.updateId 254) = true := by decide

theorem test_wf_write_empty : WellFormed Params.tv (.write []) = false := by decide
theorem test_wf_write_undefined : WellFormed Params.tv (.write [9, 15]) = false := by decide
theorem test_wf_write_fixed : WellFormed Params.tv (.writeAck [9, 2]) = false := by decide
theorem test_wf_write_long : WellFormed Params.tv (.write (List.replicate 123 12)) = false := by decide +kernel
theorem test_wf_read_empty : WellFormed Params.tv (.read []) = false := by decide
theorem test_wf_read_undefined : WellFormed Params.tv (.read [15]) = false := by decide
theorem test_wf_read_long : WellFormed Params.tv (.read (List.replicate 50 6)) = false := by decide +kernel
theorem test_wf_sync_fixed : WellFormed Params.tv (.syncWrite 2 [(1, ⟨8, 0⟩)]) = false := by decide
theorem test_wf_sync_undefined : WellFormed Params.tv (.syncWrite 15 [(1, ⟨8, 0⟩)]) = false := by decide
theorem test_wf_sync_no_target : WellFormed Params.tv (.syncWrite 10 []) = false := by decide
theorem test_wf_sync_broadcast : WellFormed Params.tv (.syncWrite 10 [(1, ⟨32, 0⟩), (255, ⟨32, 0⟩)]) = false := by decide
theorem test_wf_sync_width : WellFormed Params.tv (.syncWrite 9 [(1, ⟨32, 0⟩)]) = false := by decide
theorem test_wf_sync_long : WellFormed Params.tv (.syncWrite 6 (List.replicate 49 (1, ⟨32, 0⟩))) = false := by decide +kernel
theorem test_wf_updateId_broadcast : WellFormed Params.tv (.updateId 255) = false := by decide
theorem test_wf_reserved : WellFormed Params.tv .syncRead = false ∧ WellFormed Params.tv .bulkWrite = false ∧
    WellFormed Params.tv .bulkRead = false := by decide

/-! ## Decoding: the frames of sections 5 and 6, written out -/

theorem test_decode_ping : decode Params.tv pingFrame = .ok .ping := by decide
theorem test_decode_write : decode Params.tv writeFrame = .ok (.write [9]) := by decide
/-- WR-2: one field of each width and signedness. -/
theorem test_decode_write_values :
    decodeRequest Params.tv [0x55, 0x03, 0xBA, 0x1E, 0x01, 0x00, 0x09, 0xEF, 0xBE, 0x0A, 0xFB, 0xFF, 0xFF, 0xFF, 0x0B, 0x00,
      0x00, 0x80, 0x3F, 0x0C, 0x7F, 0x0D, 0x00, 0x80, 0x0E, 0xFF, 0x8B, 0x72, 0x7A, 0x8D] =
      .ok { device := 3, product := 0xBA, status := 0, instr := .write [9, 10, 11, 12, 13, 14],
            values := [(9, ⟨16, 0xBEEF⟩), (10, ⟨32, 0xFFFFFFFB⟩), (11, ⟨32, 0x3F800000⟩), (12, ⟨8, 0x7F⟩),
              (13, ⟨16, 0x8000⟩), (14, ⟨8, 0xFF⟩)] } := by decide
theorem test_decode_writeAck : decode Params.tv writeAckFrame = .ok (.writeAck [9]) := by decide
theorem test_decode_read : decode Params.tv readFrame = .ok (.read [13, 14, 11]) := by decide
theorem test_decode_eepromWrite : decode Params.tv eepromFrame = .ok .eepromWrite := by decide
theorem test_decode_reboot : decode Params.tv rebootFrame = .ok .reboot := by decide
theorem test_decode_hardReset : decode Params.tv hardResetFrame = .ok .hardReset := by decide
theorem test_decode_enterBootloader : decode Params.tv bootloaderFrame = .ok .enterBootloader := by decide
theorem test_decode_scanSensors : decode Params.tv scanFrame = .ok .scanSensors := by decide
theorem test_decode_resetEncoder : decode Params.tv resetEncoderFrame = .ok .resetEncoder := by decide
theorem test_decode_eepromWriteAck : decode Params.tv eepromAckFrame = .ok .eepromWriteAck := by decide
theorem test_decode_updateId : decode Params.tv updateFrame = .ok (.updateId 7) := by decide
theorem test_decode_syncWrite : decode Params.tv syncFrame =
    .ok (.syncWrite 10 [(1, ⟨32, 0xFFFFFFFB⟩), (2, ⟨32, 0x64⟩)]) := by decide

/-- The reserved commands' bytes (R57; CRCs by the generator of appendix A). -/
theorem test_decode_reserved :
    decode Params.tv [0x55, 0x03, 0xBA, 0x0A, 0x41, 0x00, 0xC2, 0x83, 0xE1, 0x90] = .ok .syncRead ∧
    decode Params.tv [0x55, 0x03, 0xBA, 0x0A, 0x42, 0x00, 0x11, 0xDC, 0x0A, 0xE2] = .ok .bulkWrite ∧
    decode Params.tv [0x55, 0x03, 0xBA, 0x0A, 0x43, 0x00, 0xCD, 0x1D, 0x13, 0x30] = .ok .bulkRead := by decide

/-- Every reason for refusing bytes (CRCs by the generator of appendix A). -/
theorem test_decode_rejects :
    decode Params.tv (pingFrame.take 9) = .error .tooShort ∧
    decode Params.tv (pingFrame.set 5 0x80) = .error .badChecksum ∧
    decode Params.tv [0x55, 0x03, 0xBA, 0x0A, 0x99, 0x00, 0x57, 0xEF, 0x32, 0xC9] = .error .noCommand ∧
    decode Params.tv [0x55, 0x03, 0xBA, 0x0B, 0x00, 0x00, 0x01, 0xD9, 0xF3, 0xC1, 0x6B] = .error .payloadNotEmpty ∧
    decode Params.tv [0x55, 0x03, 0xBA, 0x0C, 0x01, 0x00, 0x09, 0x01, 0xB0, 0x3B, 0x1A, 0xEF] = .error .badPayload := by decide

/-- A SYNC_WRITE payload cut inside a value, with no index, and with index 15 (CRCs by the generator). -/
theorem test_decode_sync_rejects :
    decode Params.tv [0x55, 0xFF, 0xBA, 0x0C, 0x40, 0x00, 0x09, 0x01, 0x28, 0xE5, 0xCF, 0x3F] = .error .badPayload ∧
    decode Params.tv [0x55, 0xFF, 0xBA, 0x0A, 0x40, 0x00, 0xDA, 0xCC, 0x0C, 0xA8] = .error .badPayload ∧
    decode Params.tv [0x55, 0xFF, 0xBA, 0x0B, 0x40, 0x00, 0x0F, 0xBC, 0x46, 0xC9, 0x3F] = .error .badPayload := by decide

/-- The encoder gives the vectors' frames. -/
theorem test_encode :
    encode Params.tv dev3 .ping = some pingFrame ∧ encode Params.tv dev3 .reboot = some rebootFrame ∧
    encode Params.tv (dev3With 9 ⟨16, 0x1234⟩) (.write [9]) = some writeFrame ∧
    encode Params.tv (dev3With 9 ⟨16, 0x1234⟩) (.writeAck [9]) = some writeAckFrame ∧
    encode Params.tv dev3 (.read [13, 14, 11]) = some readFrame ∧
    encode Params.tv dev3 (.syncWrite 10 [(1, ⟨32, 0xFFFFFFFB⟩), (2, ⟨32, 0x64⟩)]) = some syncFrame ∧
    encode Params.tv dev3 (.updateId 7) = some updateFrame := by decide

/-! ## One step of each command -/

/-- MT-1 with the echoed answer (W6). -/
theorem test_ping : after (exec .ping (demo dev3 [pingFrame])) report =
    some (.applied, 0, [.write pingFrame, .sleep 10 115200, .read 10 pingFrame]) := by decide

/-- W6: no answer. -/
theorem test_ping_no_answer : after (exec .ping (demo dev3 [[]])) (fun t => (t.phase, t.result, t.ackLatch)) =
    some (.rejected, .failed (.lengthMismatch 0 10), none) := by decide

/-- WR-1. -/
theorem test_write : after (exec (.write [9]) (demo (dev3With 9 ⟨16, 0x1234⟩) [])) report =
    some (.applied, 0, [.write writeFrame, .sleep 10 115200]) := by decide

/-- WR-11: the index checks come before the check for a value. -/
theorem test_write_order : after (exec (.write [6, 15]) (demo dev3 [])) trouble =
    some (.rejected, .failed (.validation (.indexOutOfRange 15)), []) := by decide

/-- W1. -/
theorem test_read : after (exec (.read [6, 7]) (demo dev3 [w1Ack]))
      (fun t => (report t, readReg t.table 6, readReg t.table 7)) =
    some ((.applied, 0, [.write w1Request, .sleep 10 115200, .read 20 w1Ack]), some ⟨32, 65538⟩, some ⟨32, 131088⟩) := by decide

/-- AP-4: a good pair before a bad one is not applied. -/
theorem test_read_malformed :
    after (exec (.read [9]) (demo dev3 [[0x55, 0x03, 0xBA, 0x0D, 0x02, 0x00, 0x0C, 0x11, 0x0C, 0xC7, 0x90, 0x05, 0x04]]))
      (fun t => (t.phase, t.result, readReg t.table 12)) =
    some (.rejected, .failed (.payloadMalformed 2), none) := by decide

/-- MT-2 with P4's answer. -/
theorem test_eepromWrite : after (exec .eepromWrite (demo dev3 [eepromFrame])) report =
    some (.applied, 0, [.write eepromFrame, .sleep 10 115200, .read 10 eepromFrame]) := by decide

/-- MT-3. -/
theorem test_reboot : after (exec .reboot (demo dev3 [])) report =
    some (.applied, 0, [.write rebootFrame, .sleep 10 115200]) := by decide

/-- MT-4. -/
theorem test_hardReset : after (exec .hardReset (demo dev3 [])) report =
    some (.applied, 0, [.write hardResetFrame, .sleep 10 115200]) := by decide

/-- MT-5. -/
theorem test_enterBootloader : after (exec .enterBootloader (demo dev3 [])) report =
    some (.applied, 0, [.write bootloaderFrame, .sleep 10 115200]) := by decide

/-- MT-9. -/
theorem test_scanSensors : after (exec .scanSensors (demo dev3 [scanFrame])) report =
    some (.applied, 0, [.write scanFrame, .sleep 10 115200, .read 10 scanFrame]) := by decide

/-- DEC-8: an over-long answer is cut by the bound. -/
theorem test_scanSensors_cut : after (exec .scanSensors (demo dev3
      [[0x55, 0x03, 0xBA, 0x0E, 0x0B, 0x00, 0x03, 0x07, 0x2A, 0x09, 0xDB, 0x53, 0x88, 0x1E]])) (fun t => (t.phase, t.result)) =
    some (.rejected, .failed .checksumMismatch) := by decide

/-- MT-7 with the echoed answer. -/
theorem test_resetEncoder : after (exec .resetEncoder (demo dev3 [resetEncoderFrame])) report =
    some (.applied, 0, [.write resetEncoderFrame, .sleep 10 115200, .read 10 resetEncoderFrame]) := by decide

/-- SW-1. -/
theorem test_syncWrite : after (exec (.syncWrite 10 [(1, ⟨32, 0xFFFFFFFB⟩), (2, ⟨32, 0x64⟩)]) State.reset) report =
    some (.applied, 0, [.write syncFrame, .sleep 10 115200]) := by decide

/-- SW-7. -/
theorem test_syncWrite_broadcast : after (exec (.syncWrite 10 [(1, ⟨32, 0⟩), (255, ⟨32, 0⟩)]) (demo dev3 [])) trouble =
    some (.rejected, .failed (.validation (.badDeviceId 255)), []) := by decide

/-- MT-11. -/
theorem test_reserved :
    after (exec .syncRead (demo dev3 [])) trouble = some (.rejected, .failed (.unimplemented .syncRead), []) ∧
    after (exec .bulkWrite (demo dev3 [])) trouble = some (.rejected, .failed (.unimplemented .bulkWrite), []) ∧
    after (exec .bulkRead (demo dev3 [])) trouble = some (.rejected, .failed (.unimplemented .bulkRead), []) := by decide

/-- WA-2. -/
theorem test_writeAck : after (exec (.writeAck [9]) (demo (dev3With 9 ⟨16, 0x1234⟩)
      [[0x55, 0x03, 0xBA, 0x0A, 0x81, 0x00, 0x16, 0x37, 0x2B, 0x53]])) (fun t => (t.phase, t.bus.head?, readReg t.table 9)) =
    some (.applied, some (.write writeAckFrame), some ⟨16, 0x1234⟩) := by decide

/-- WA-4. -/
theorem test_writeAck_checksum : after (exec (.writeAck [9]) (demo (dev3With 9 ⟨16, 0x1234⟩)
      [[0x55, 0x03, 0xBA, 0x0A, 0x81, 0x00, 0x16, 0x37, 0x2B, 0x52]])) (fun t => (t.phase, t.result)) =
    some (.rejected, .failed .checksumMismatch) := by decide

/-- MT-8 with the echoed answer. -/
theorem test_eepromWriteAck : after (exec .eepromWriteAck (demo dev3 [eepromAckFrame])) report =
    some (.applied, 0, [.write eepromAckFrame, .sleep 10 115200, .read 10 eepromAckFrame]) := by decide

/-- UID-1: T keeps the old ID. -/
theorem test_updateId : after (exec (.updateId 7) (demo dev3 [])) (fun t => (report t, readReg t.table 1)) =
    some ((.applied, 0, [.write updateFrame, .sleep 10 115200]), some ⟨8, 3⟩) := by decide

/-- UID-3: the header ID is checked first. -/
theorem test_updateId_placeholder : after (exec (.updateId 5) State.reset) trouble =
    some (.rejected, .failed (.validation (.badDeviceId 255)), []) := by decide

/-- PR-9: GET while an acknowledgment is awaited. -/
theorem test_busy : after (execOp (.get 1) (awaiting ⟨10, .noData⟩ [])) (fun t => (t.phase, t.result, t.ackLatch)) =
    some (.awaitingAck, .failed (.busy (.get 1)), some ⟨10, .noData⟩) := by decide

/-! ## The interface -/

/-- A table word of each addressing shape decodes: REBOOT's byte 4, a READ of one ordinal, and UPDATE_ID 7. -/
theorem test_tableWord : decodeTableWord 48 (0x05 * 2 ^ 32) = some .reboot ∧
    decodeTableWord 88 (0x0F * 2 ^ 48 + 0x02 * 2 ^ 32) = some (.read [0x0F]) ∧
    decodeTableWord 96 (0x0701 * 2 ^ 48 + 0x01 * 2 ^ 32) = some (.updateId 7) := by decide

/-- The placed command is the first the block runs after reset (REBOOT to no device: BadDeviceId). -/
theorem test_fetchWord : after (step (State.reset.withFetchWord 48 (0x05 * 2 ^ 32))) (fun t => (trouble t, t.pending)) =
    some ((.rejected, .failed (.validation (.badDeviceId 255)), []), []) := by decide

/-! ## Witnesses: concrete states and operands that meet each statement's hypotheses -/

theorem tv_valid : Params.tv.Valid := by decide

theorem dev3_ok : TableOk Params.tv dev3 := tableOk_freshTable tv_valid 3

theorem demo_inv {t : Table} {a : List (List Byte)} (h : tableCheck Params.tv t = true) : BlockInv (demo t a) where
  params := tv_valid
  table := tableOk_of_check h
  baud := by simp [demo, State.reset, State.resetWith, Params.tv]
  latch := ⟨rfl, rfl⟩
  latchLen := by simp [demo, State.reset, State.resetWith]
  mark := by simp [demo, State.reset, State.resetWith]
  result := by simp [demo, State.reset, State.resetWith]

theorem demo_ready (t : Table) (a : List (List Byte)) : Ready (demo t a) := by
  simp [Ready, demo, State.reset, State.resetWith]

theorem awaiting_inv (k : AckKind) (a : List (List Byte)) : BlockInv (awaiting ⟨10, k⟩ a) where
  params := tv_valid
  table := dev3_ok
  baud := by simp [awaiting, demo, State.reset, State.resetWith, Params.tv]
  latch := ⟨rfl, rfl⟩
  latchLen := by simp [awaiting]
  mark := by simp [awaiting, demo, State.reset, State.resetWith]
  result := by simp [awaiting, demo, State.reset, State.resetWith]

theorem settling_inv : BlockInv (settling none) ∧ BlockInv (settling (some ⟨255, .raw⟩)) := by
  constructor <;>
    exact { params := tv_valid, table := dev3_ok, baud := by decide, latch := rfl,
            latchLen := by simp [settling, demo, State.reset, State.resetWith],
            mark := by simp [settling, demo, State.reset, State.resetWith],
            result := by simp [settling, demo, State.reset, State.resetWith] }

/-- The shortest and the longest frame. -/
theorem witness_EncodedFrameLayout :
    (TableOk Params.tv dev3 ∧ encodeFrame Params.tv dev3 .ping [] = .ok pingFrame) ∧
    (TableOk Params.tv dev3 ∧ ∃ f, encodeFrame Params.tv dev3 .write (List.replicate 245 0) = .ok f) :=
  ⟨⟨dev3_ok, by decide⟩, dev3_ok, _, encodeFrame_eq dev3_ok .write _ ▸ if_neg (by decide +kernel)⟩

theorem witness_EncodeRefusesOnlyLongFrames :
    TableOk Params.tv dev3 ∧ 10 + (List.replicate 245 (0 : Byte)).length ≤ 255 ∧
    255 < 10 + (List.replicate 246 (0 : Byte)).length := ⟨dev3_ok, by decide +kernel, by decide +kernel⟩

theorem witness_FrameDecodesToItsFields :
    TableOk Params.tv dev3 ∧ encodeFrame Params.tv dev3 .read [6, 7] = .ok w1Request := ⟨dev3_ok, by decide⟩

/-- First byte, a payload byte, and last byte (W3). -/
theorem witness_OneWrongByteIsDetected :
    (∃ d, decodeAndValidate w1Ack 20 = .ok d) ∧ 0 < w1Ack.length ∧ w1Ack[0]? ≠ some 0x54 ∧ 9 < w1Ack.length ∧
    w1Ack[9]? ≠ some 0x05 ∧ 19 < w1Ack.length ∧ w1Ack[19]? ≠ some 0xEA := by
  refine ⟨⟨_, rfl⟩, ?_⟩; decide

theorem witness_ValueFieldReadsBack : (⟨16, 0x1234⟩ : Pattern).width = 8 * regWidth Params.tv 9 := by decide

theorem witness_LittleEndianFields : 3 < 4 ∧ (le 4 0x286CF944)[3]? = some 0x28 ∧ leValue [0x44, 0xF9, 0x6C, 0x28] = 0x286CF944 := by
  decide

/-- Each of the decoder's outcomes: prediction below 10, wrong count, wrong CRC, a frame. -/
theorem witness_DecoderMakesExactlyTwoChecks :
    9 < 10 ∧ (pingFrame.take 9).length ≠ 10 ∧ (pingFrame.set 9 0).length = 10 ∧ ¬ CrcMatches (pingFrame.set 9 0) ∧
    pingFrame.length = 10 ∧ CrcMatches pingFrame := by decide

theorem witness_EncodedRequestDecodes :
    Params.tv.Valid ∧ TableOk Params.tv (dev3With 9 ⟨16, 0x1234⟩) ∧
    encode Params.tv (dev3With 9 ⟨16, 0x1234⟩) (.write [9]) = some writeFrame ∧ Instr.write [9] ≠ .write [1#8] ∧
    encode Params.tv (dev3With 9 ⟨16, 0x1234⟩) (.syncWrite 10 [(1, ⟨32, 0xFFFFFFFB⟩), (2, ⟨32, 0x64⟩)]) = some syncFrame :=
  ⟨tv_valid, tableOk_of_check (by decide), by decide, by decide, by decide⟩

theorem witness_WriteOfDeviceIdDecodesAsUpdateId :
    Params.tv.Valid ∧ TableOk Params.tv dev3 ∧ regByte dev3 1#8 ≠ 255#8 ∧
    (encode Params.tv dev3 (.write [1#8])).isSome = true := ⟨tv_valid, dev3_ok, by decide, by decide⟩

/-- Both sides hold of a PING and of a broadcast from the placeholder; neither holds of a PING from the placeholder. -/
theorem witness_EncoderGivesTheTransmittedFrame :
    Params.tv.Valid ∧ TableOk Params.tv dev3 ∧ build Params.tv dev3 .ping = .ok (pingFrame, some ⟨10, .noData⟩) ∧
    encode Params.tv dev3 .ping = some pingFrame ∧ regByte dev3 1#8 ≠ 255#8 ∧
    TableOk Params.tv State.reset.table ∧ encode Params.tv State.reset.table (.syncWrite 12 [(4, ⟨8, 0⟩)]) ≠ none ∧
    regByte State.reset.table 1#8 = 255#8 :=
  ⟨tv_valid, dev3_ok, by decide, by decide, by decide, tableOk_freshTable tv_valid _, by decide, by decide⟩

/-- A frame that is read, and one whose byte 4 selects no command. -/
theorem witness_RequestDecoderSelectsByByteFour :
    (∃ r, decodeRequest Params.tv readFrame = .ok r) ∧
    ∀ c, ([0x55, 0x03, 0xBA, 0x0A, 0x99, 0x00, 0x57, 0xEF, 0x32, 0xC9] : List Byte)[4]? ≠ some (Params.tv.cmdCode.code c) :=
  ⟨⟨_, rfl⟩, fun c => by cases c <;> decide⟩

/-- The last defined ordinal, the first undefined one, both fixed ones, and both widths. -/
theorem witness_SetWritesOneRegister :
    Ready (demo dev3 []) ∧ Params.tv.regCount ≤ (15#8).toNat ∧ ¬ Params.tv.regCount ≤ (14#8).toNat ∧
    (⟨16, 0⟩ : Pattern).width ≠ 8 * regWidth Params.tv 14 ∧ (⟨8, 0⟩ : Pattern).width = 8 * regWidth Params.tv 14 :=
  ⟨demo_ready _ _, by decide⟩

theorem witness_SetThenGetReturnsTheValue :
    BlockInv (demo dev3 []) ∧ Ready (demo dev3 []) ∧ writeProblem Params.tv 9 = none ∧
    (⟨16, 0x1234⟩ : Pattern).width = 8 * regWidth Params.tv 9 ∧ (1 : Byte) ≠ 9 ∧
    (∃ u, execOp (.get 1) (demo dev3 []) = .next u) ∧
    ∃ w, execOps [.set 9 ⟨16, 0x1234⟩, .get 1] (demo dev3 []) = .next w :=
  ⟨demo_inv (by decide), demo_ready _ _, by decide, by decide, by decide, ⟨_, rfl⟩, _, rfl⟩

theorem witness_GetReadsTheMirror :
    (demo dev3 []).faultMark = .clear ∧ Ready (demo dev3 []) ∧ Params.tv.regCount ≤ (15#8).toNat ∧
    readReg dev3 6 = none ∧ readReg dev3 1 = some ⟨8, 3⟩ := ⟨rfl, demo_ready _ _, by decide⟩

theorem witness_ByteWidthAndEncodingFromTheMap :
    Ready (demo dev3 []) ∧ Params.tv.regEnc[15]? = none ∧ Params.tv.regEnc[14]? = some .i8 := ⟨demo_ready _ _, by decide⟩

/-- The largest device ID and the broadcast ID. -/
theorem witness_AttachMakesAFreshTable :
    Params.tv.Valid ∧ Ready State.reset ∧ (254 : Byte) ≠ 255#8 ∧ (255 : Byte) = 255#8 :=
  ⟨tv_valid, demo_ready State.reset.table [], by decide⟩

theorem witness_BusyWhileInFlight :
    ((awaiting ⟨10, .noData⟩ []).faultMark = .clear ∧ (awaiting ⟨10, .noData⟩ []).phase = .awaitingAck) ∧
    ((settling none).faultMark = .clear ∧ (settling none).phase = .frameSent) ∧
    isOperation (.command .ping) = true ∧ isOperation (.get 1) = true := by decide

/-- WRITE and WRITE_ACK: placeholder, no ordinal, undefined, fixed, no value, 123 ordinals, and 122 that fit. -/
theorem witness_WriteTransaction :
    (Safe (demo State.reset.table []) ∧ regByte State.reset.table 1#8 = 255#8) ∧
    Safe (demo (dev3With 12 ⟨8, 1⟩) []) ∧ Ready (demo (dev3With 12 ⟨8, 1⟩) []) ∧ regByte (dev3With 12 ⟨8, 1⟩) 1#8 ≠ 255#8 ∧
    writeProblem Params.tv 15 ≠ none ∧ writeProblem Params.tv 2 ≠ none ∧ writeProblem Params.tv 12 = none ∧
    readReg (dev3With 12 ⟨8, 1⟩) 6 = none ∧ readReg (dev3With 12 ⟨8, 1⟩) 12 = some ⟨8, 1⟩ ∧
    255 < 10 + pairsLen Params.tv (List.replicate 123 12) ∧ ¬ 255 < 10 + pairsLen Params.tv (List.replicate 122 12) :=
  ⟨⟨⟨demo_inv (by decide), rfl⟩, by decide⟩, ⟨demo_inv (by decide), rfl⟩, demo_ready _ _, by decide, by decide, by decide,
    by decide, by decide, by decide, by decide +kernel, by decide +kernel⟩

theorem witness_WriteAckTransaction :
    Safe (demo (dev3With 12 ⟨8, 1⟩) [pingFrame]) ∧ Ready (demo (dev3With 12 ⟨8, 1⟩) [pingFrame]) ∧
    regByte (dev3With 12 ⟨8, 1⟩) 1#8 ≠ 255#8 ∧ writeProblem Params.tv 12 = none ∧
    (answer 10 (demo dev3 [pingFrame])).length = 10 ∧ CrcMatches (answer 10 (demo dev3 [pingFrame])) :=
  ⟨⟨demo_inv (by decide), rfl⟩, demo_ready _ _, by decide⟩

/-- READ: the placeholder, an undefined ordinal, 50 and 49 ordinals of width 4 (RD-8, RD-9). -/
theorem witness_ReadTransaction :
    BlockInv (demo dev3 [w1Ack]) ∧ Ready (demo dev3 [w1Ack]) ∧ regByte dev3 1#8 ≠ 255#8 ∧
    readProblem Params.tv 15 ≠ none ∧ readProblem Params.tv 14 = none ∧
    255 < 10 + pairsLen Params.tv (List.replicate 50 6) ∧ 10 + pairsLen Params.tv (List.replicate 49 6) = 255 ∧
    (answer 20 (demo dev3 [w1Ack])).length = 10 + pairsLen Params.tv [6, 7] ∧ CrcMatches (answer 20 (demo dev3 [w1Ack])) :=
  ⟨demo_inv (by decide), demo_ready _ _, by decide, by decide, by decide, by decide +kernel, by decide +kernel, by decide,
    by decide⟩

/-- SYNC_WRITE: fixed, undefined, target 255, wrong width, 49 targets and 48 that fit. -/
theorem witness_SyncWriteTransaction :
    BlockInv (demo dev3 []) ∧ Ready (demo dev3 []) ∧ writeProblem Params.tv 2 ≠ none ∧ writeProblem Params.tv 15 ≠ none ∧
    writeProblem Params.tv 6 = none ∧ targetProblem Params.tv 6 (255, ⟨32, 0⟩) ≠ none ∧
    targetProblem Params.tv 6 (1, ⟨8, 0⟩) ≠ none ∧ targetProblem Params.tv 6 (254, ⟨32, 0⟩) = none ∧
    255 < 11 + 49 * (1 + regWidth Params.tv 6) ∧ ¬ 255 < 11 + 48 * (1 + regWidth Params.tv 6) :=
  ⟨demo_inv (by decide), demo_ready _ _, by decide⟩

/-- For UPDATE_ID, the maintenance commands and SCAN_SENSORS: an attached table and the placeholder, in states of the
invariant between transactions. -/
theorem witness_UpdateIdTransaction :
    (BlockInv (demo dev3 []) ∧ Ready (demo dev3 []) ∧ regByte dev3 1#8 ≠ 255#8 ∧ (254 : Byte) ≠ 255#8) ∧
    (BlockInv (demo State.reset.table []) ∧ Ready (demo State.reset.table []) ∧ regByte State.reset.table 1#8 = 255#8) :=
  ⟨⟨demo_inv (by decide), demo_ready _ _, by decide⟩, demo_inv (by decide), demo_ready _ _, by decide⟩

theorem witness_UnacknowledgedMaintenance :
    BlockInv (demo dev3 []) ∧ Ready (demo dev3 []) ∧
    (Instr.reboot, Command.reboot) ∈ [(Instr.reboot, Command.reboot), (.hardReset, .hardReset), (.enterBootloader, .enterBootloader)] :=
  ⟨demo_inv (by decide), demo_ready _ _, by decide⟩

/-- The placeholder, a short answer and a wrong CRC: the other ends of an acknowledged transaction. -/
theorem witness_acknowledged_failures :
    (BlockInv (demo State.reset.table []) ∧ Ready (demo State.reset.table []) ∧ regByte State.reset.table 1#8 = 255#8) ∧
    (BlockInv (demo dev3 [pingFrame.take 9]) ∧ Ready (demo dev3 [pingFrame.take 9]) ∧ regByte dev3 1#8 ≠ 255#8 ∧
      (answer 10 (demo dev3 [pingFrame.take 9])).length ≠ 10) ∧
    (BlockInv (demo dev3 [pingFrame.set 6 0x53]) ∧ Ready (demo dev3 [pingFrame.set 6 0x53]) ∧
      (answer 10 (demo dev3 [pingFrame.set 6 0x53])).length = 10 ∧
      ¬ CrcMatches (answer 10 (demo dev3 [pingFrame.set 6 0x53]))) :=
  ⟨⟨demo_inv (by decide), demo_ready _ _, by decide⟩, ⟨demo_inv (by decide), demo_ready _ _, by decide⟩,
    demo_inv (by decide), demo_ready _ _, by decide⟩

theorem witness_AcknowledgedMaintenance :
    BlockInv (demo dev3 [pingFrame]) ∧ Ready (demo dev3 [pingFrame]) ∧
    (Instr.ping, Command.ping) ∈ [(Instr.ping, Command.ping), (.eepromWrite, .eepromWrite), (.eepromWriteAck, .eepromWriteAck),
      (.resetEncoder, .resetEncoder)] ∧
    (answer 10 (demo dev3 [pingFrame])).length = 10 ∧ CrcMatches (answer 10 (demo dev3 [pingFrame])) :=
  ⟨demo_inv (by decide), demo_ready _ _, by decide⟩

theorem witness_ScanSensorsReturnsRawPayload :
    BlockInv (demo dev3 [scanFrame]) ∧ Ready (demo dev3 [scanFrame]) ∧
    (answer Params.tv.scanAckLen (demo dev3 [scanFrame])).length = Params.tv.scanAckLen :=
  ⟨demo_inv (by decide), demo_ready _ _, by decide⟩

theorem witness_ReservedCommandsAreRefused :
    Ready (demo dev3 []) ∧
    (Instr.bulkRead, Command.bulkRead) ∈ [(Instr.syncRead, Command.syncRead), (.bulkRead, .bulkRead), (.bulkWrite, .bulkWrite)] ∧
    Params.tv.Valid ∧ build Params.tv dev3 .ping = .ok (pingFrame, some ⟨10, .noData⟩) ∧
    Command.bulkRead ∈ [Command.syncRead, .bulkRead, .bulkWrite] :=
  ⟨demo_ready _ _, by decide, tv_valid, by decide, by decide⟩

/-- A WRITE, a broadcast from the placeholder, and each command without operands. -/
theorem witness_UnacknowledgedCommandsComplete :
    (BlockInv (demo (dev3With 9 ⟨16, 0x1234⟩) []) ∧ Ready (demo (dev3With 9 ⟨16, 0x1234⟩) []) ∧
      encode Params.tv (dev3With 9 ⟨16, 0x1234⟩) (.write [9]) = some writeFrame ∧ prediction Params.tv (.write [9]) = none ∧
      regByte (dev3With 9 ⟨16, 0x1234⟩) 1#8 ≠ 255#8) ∧
    (BlockInv (demo dev3 []) ∧ Ready (demo dev3 []) ∧ regByte dev3 1#8 ≠ 255#8 ∧
      encode Params.tv dev3 .reboot = some rebootFrame ∧ prediction Params.tv .reboot = none ∧
      encode Params.tv dev3 .hardReset = some hardResetFrame ∧ prediction Params.tv .hardReset = none ∧
      encode Params.tv dev3 .enterBootloader = some bootloaderFrame ∧ prediction Params.tv .enterBootloader = none ∧
      encode Params.tv dev3 (.updateId 7) = some updateFrame ∧ prediction Params.tv (.updateId 7) = none) ∧
    (BlockInv (demo State.reset.table []) ∧ isUnicast (.syncWrite 12 [(4, ⟨8, 0⟩)]) = false ∧
      encode Params.tv State.reset.table (.syncWrite 12 [(4, ⟨8, 0⟩)]) ≠ none ∧
      prediction Params.tv (.syncWrite 12 [(4, ⟨8, 0⟩)]) = none) :=
  ⟨⟨demo_inv (by decide), demo_ready _ _, by decide⟩, ⟨demo_inv (by decide), demo_ready _ _, by decide⟩,
    demo_inv (by decide), by decide⟩

/-- Each command with an acknowledgment, answered by a valid frame. -/
theorem witness_AcknowledgedCommandsComplete :
    (BlockInv (demo dev3 [pingFrame]) ∧ Ready (demo dev3 [pingFrame]) ∧ regByte dev3 1#8 ≠ 255#8 ∧
      (answer 10 (demo dev3 [pingFrame])).length = 10 ∧ CrcMatches (answer 10 (demo dev3 [pingFrame])) ∧
      encode Params.tv dev3 .ping = some pingFrame ∧ prediction Params.tv .ping = some ⟨10, .noData⟩ ∧
      encode Params.tv dev3 .eepromWrite = some eepromFrame ∧ prediction Params.tv .eepromWrite = some ⟨10, .noData⟩ ∧
      encode Params.tv dev3 .eepromWriteAck = some eepromAckFrame ∧
      prediction Params.tv .eepromWriteAck = some ⟨10, .noData⟩ ∧
      encode Params.tv dev3 .resetEncoder = some resetEncoderFrame ∧
      prediction Params.tv .resetEncoder = some ⟨10, .noData⟩ ∧
      encode Params.tv dev3 .scanSensors = some scanFrame ∧ prediction Params.tv .scanSensors = some ⟨10, .raw⟩) ∧
    (BlockInv (demo (dev3With 9 ⟨16, 0x1234⟩) [pingFrame]) ∧
      encode Params.tv (dev3With 9 ⟨16, 0x1234⟩) (.writeAck [9]) = some writeAckFrame ∧
      prediction Params.tv (.writeAck [9]) = some ⟨10, .noData⟩) ∧
    (BlockInv (demo dev3 [w1Ack]) ∧ Ready (demo dev3 [w1Ack]) ∧ encode Params.tv dev3 (.read [6, 7]) = some w1Request ∧
      prediction Params.tv (.read [6, 7]) = some ⟨20, .readData⟩ ∧ (answer 20 (demo dev3 [w1Ack])).length = 20 ∧
      CrcMatches (answer 20 (demo dev3 [w1Ack])) ∧
      parsePairs Params.tv (frameOf (answer 20 (demo dev3 [w1Ack]))).payload =
        .ok [(6, ⟨32, 0x00010002⟩), (7, ⟨32, 0x00020010⟩)]) :=
  ⟨⟨demo_inv (by decide), demo_ready _ _, by decide⟩, ⟨demo_inv (by decide), by decide⟩,
    ⟨demo_inv (by decide), demo_ready _ _, by decide⟩⟩

theorem witness_PayloadSplitsIntoPairs :
    parsePairs Params.tv [0x0C, 0x11, 0x0D, 0x34, 0x12] = .ok [(12, ⟨8, 0x11⟩), (13, ⟨16, 0x1234⟩)] := by decide

/-- AP-2 and AP-3: an undefined index, and a value cut short. -/
theorem witness_MalformedPayloadOffset :
    parsePairs Params.tv [0x0F, 0x00, 0x00] = .error (.payloadMalformed 0) ∧
    parsePairs Params.tv [0x0C, 0x11, 0x06, 0x01, 0x02] = .error (.payloadMalformed 2) := by decide

/-- AP-1: a repeated register, a fixed one, and the rest left. -/
def ap1 : List Byte := [0x55, 0x03, 0xBA, 0x10, 0x02, 0x00, 0x0C, 0x11, 0x0C, 0x22, 0x00, 0x99, 0x47, 0x56, 0x74, 0xEC]

theorem witness_AcknowledgedPairsLandInTheTable :
    BlockInv (demo dev3 [ap1]) ∧ Ready (demo dev3 [ap1]) ∧
    after (exec (.read [12, 12, 12]) (demo dev3 [ap1])) State.phase = some .applied ∧
    after (exec (.read [12, 12, 12]) (demo dev3 [ap1])) (fun t => (readReg t.table 12, readReg t.table 0)) =
      some (some ⟨8, 0x22⟩, some ⟨8, 0x55⟩) := ⟨demo_inv (by decide), demo_ready _ _, by decide⟩

/-- Two acknowledgments with the payload `0C 11` and every header byte different (CRCs by the generator of appendix A). -/
def ackA : List Byte := [0x55, 0x03, 0xBA, 0x0C, 0x02, 0x00, 0x0C, 0x11, 0xDB, 0xB2, 0x41, 0x54]
def ackB : List Byte := [0xAA, 0x09, 0x11, 0x00, 0x77, 0x42, 0x0C, 0x11, 0xC7, 0xD5, 0xF6, 0x9F]

theorem witness_AcknowledgmentHeaderIsNotApplied :
    BlockInv (demo dev3 []) ∧ Ready (demo dev3 []) ∧ ackA.length = 10 + pairsLen Params.tv [12] ∧
    ackB.length = 10 + pairsLen Params.tv [12] ∧ CrcMatches ackA ∧ CrcMatches ackB ∧
    (frameOf ackA).payload = (frameOf ackB).payload ∧
    (∃ ta, exec (.read [12]) { demo dev3 [] with answers := ackA :: (demo dev3 []).answers } = .next ta) ∧
    ∃ tb, exec (.read [12]) { demo dev3 [] with answers := ackB :: (demo dev3 []).answers } = .next tb :=
  ⟨demo_inv (by decide), demo_ready _ _, by decide, by decide, by decide, by decide, by decide, ⟨_, rfl⟩, _, rfl⟩

/-- An error before transmission, an error after it, a fault, and Busy. -/
theorem witness_FailureLeavesTheTable :
    isOperation (.command (.write [])) = true ∧
    after (execOp (.command (.write [])) (demo dev3 [])) State.result = some (.failed (.validation .emptyList)) ∧
    after (execOp (.command .ping) (demo dev3 [[]])) State.result = some (.failed (.lengthMismatch 0 10)) ∧
    after (execOp (.get 6) (demo dev3 [])) State.result = some (.failed (.unwrittenRegister 6)) ∧
    after (execOp (.command .ping) (settling none)) State.result = some (.failed (.busy (.command .ping))) ∧
    (demo dev3 []).faultMark = .clear := by decide

/-- The three shapes of a command's bus calls. -/
theorem witness_OneWriteAtMostOneRead :
    after (exec .syncRead (demo dev3 [])) State.bus = some [] ∧
    after (exec .reboot (demo dev3 [])) (fun t => t.bus.length) = some 2 ∧
    after (exec .ping (demo dev3 [pingFrame])) (fun t => t.bus.length) = some 3 := by decide

theorem witness_SplitTransactionGivesTheSameResult : Ready (demo dev3 [pingFrame]) := demo_ready _ _

/-- Each operation of the table that moves PHASE, from the phase it moves. -/
theorem witness_PhaseFollowsTheTable :
    (BlockInv (demo dev3 []) ∧ after (execOp (.begin .ping) (demo dev3 [])) State.phase = some .frameSent ∧
      after (execOp (.begin (.write [])) (demo dev3 [])) State.phase = some .rejected) ∧
    (BlockInv (settling none) ∧ after (execOp .settled (settling none)) State.phase = some .applied) ∧
    (BlockInv (settling (some ⟨255, .raw⟩)) ∧
      after (execOp .settled (settling (some ⟨255, .raw⟩))) State.phase = some .awaitingAck) ∧
    (BlockInv (awaiting ⟨10, .noData⟩ [pingFrame]) ∧
      after (execOp .received (awaiting ⟨10, .noData⟩ [pingFrame])) State.phase = some .applied) ∧
    (BlockInv (awaiting ⟨10, .readData⟩ [pingFrame.set 6 0x53]) ∧
      after (execOp .received (awaiting ⟨10, .readData⟩ [pingFrame.set 6 0x53])) (fun t => (t.phase, resultCode t.result)) =
        some (.rejected, 3)) ∧
    (Ready (demo dev3 []) ∧ after (execOp (.command .reboot) (demo dev3 [])) State.phase = some .applied ∧
      after (execOp (.command (.write [])) (demo dev3 [])) State.phase = some .rejected) :=
  ⟨⟨demo_inv (by decide), by decide⟩, ⟨settling_inv.1, by decide⟩, ⟨settling_inv.2, by decide⟩,
    ⟨awaiting_inv _ _, by decide⟩, ⟨awaiting_inv _ _, by decide⟩, demo_ready _ _, by decide⟩

theorem witness_PredictionIsLatchedWithItsFrame :
    (BlockInv (demo dev3 []) ∧ Ready (demo dev3 []) ∧
      after (execOp (.begin .ping) (demo dev3 [])) (fun t => (t.phase, t.ackLatch)) =
        some (.frameSent, some ⟨10, .noData⟩)) ∧
    ((awaiting ⟨10, .noData⟩ [pingFrame]).phase = .awaitingAck ∧
      (awaiting ⟨10, .noData⟩ [pingFrame]).ackLatch = some ⟨10, .noData⟩ ∧
      ∃ t, execOp .received (awaiting ⟨10, .noData⟩ [pingFrame]) = .next t) ∧
    (BlockInv (settling none) ∧ (settling none).phase = .frameSent ∧ ∃ t, execOp .settled (settling none) = .next t) :=
  ⟨⟨demo_inv (by decide), demo_ready _ _, by decide⟩, ⟨rfl, rfl, _, rfl⟩, settling_inv.1, rfl, _, rfl⟩

theorem witness_UnattachedTableRejectsUnicast : Params.tv.Valid ∧ isUnicast (.write []) = true ∧ isUnicast .ping = true :=
  ⟨tv_valid, by decide⟩

theorem witness_InvariantHoldsAtReset : Params.tv.Valid := tv_valid

/-- A step that runs a command, and one that waits. -/
theorem witness_StepKeepsTheInvariant :
    (BlockInv (demo dev3 []) ∧ ∃ t, step (demo dev3 []) = .next t) ∧
    (BlockInv { demo dev3 [pingFrame] with pending := [.command .ping] } ∧
      ∃ t, step { demo dev3 [pingFrame] with pending := [.command .ping] } = .next t) := by
  have h : BlockInv (demo dev3 [pingFrame]) := demo_inv (by decide)
  exact ⟨⟨demo_inv (by decide), _, rfl⟩, ⟨h.params, h.table, h.baud, h.latch, h.latchLen, h.mark, h.result⟩, _, rfl⟩

theorem witness_StepRunsTheIssuedCommand :
    ({ demo dev3 [] with pending := [.command .ping] } : State).pending = .command .ping :: [] ∧
    ({ demo dev3 [] with pending := [.set 9 ⟨16, 1⟩, .get 9] } : State).pending = .set 9 ⟨16, 1⟩ :: [.get 9] ∧
    (demo dev3 []).pending = [] ∧
    decode (demo dev3 []).params (frameOfWord 48 (0x05 * 2 ^ 32)) = .ok .reboot := by decide

/-- A step that sets FAULT, and one from a state where it is set. -/
theorem witness_FaultMarkIsSticky :
    after (step { demo dev3 [] with pending := [.get 6] }) State.faultMark = some (.set (.unwrittenRegister 6)) ∧
    after (step { demo dev3 [] with pending := [.get 1], faultMark := .set (.unwrittenRegister 6) }) State.faultMark =
      some (.set (.unwrittenRegister 6)) := by decide

theorem witness_ParametersNeverChange :
    after (step { demo dev3 [] with pending := [.setBaud 57600] }) State.baud = some 57600 := by decide

/-- One operation of each kind that changes T. -/
theorem witness_OnlySetAttachAndReadChangeTheTable :
    after (execOp (.set 9 ⟨16, 1⟩) (demo dev3 [])) State.table ≠ some dev3 ∧
    after (execOp (.attach 7) (demo dev3 [])) State.table ≠ some dev3 ∧
    after (execOp (.handTable State.reset.table) (demo dev3 [])) State.table ≠ some dev3 ∧
    after (execOp (.command (.read [6, 7])) (demo dev3 [w1Ack])) State.table ≠ some dev3 ∧
    after (execOp .received (awaiting ⟨20, .readData⟩ [w1Ack])) State.table ≠ some dev3 := by decide

theorem witness_FixedRegistersKeepTheirConstants :
    BlockInv (demo dev3 []) ∧ Ready (demo dev3 []) ∧ (∃ t, step (demo dev3 []) = .next t) ∧
    ((0 : Byte) = 0#8 ∨ (0 : Byte) = 2#8) ∧ ((2 : Byte) = 0#8 ∨ (2 : Byte) = 2#8) :=
  ⟨demo_inv (by decide), demo_ready _ _, ⟨_, rfl⟩, by decide⟩

/-- A state outside every run, in which an operation leaves such a RESULT as it found it. -/
theorem witness_BlockNeverRaisesUnknownDevice :
    after (execOp (.setBaud 9600) { demo dev3 [] with result := .failed (.unknownDevice 3) }) State.result =
      some (.failed (.unknownDevice 3)) := by decide

theorem witness_FailedAckKeepsTheSets :
    BlockInv (demo dev3 [[]]) ∧ Ready (demo dev3 [[]]) ∧
    ∀ iv ∈ [((9 : Byte), (⟨16, 0x1234⟩ : Pattern)), (11, ⟨32, 0x3F800000⟩)],
      writeProblem Params.tv iv.1 = none ∧ iv.2.width = 8 * regWidth Params.tv iv.1 :=
  ⟨demo_inv (by decide), demo_ready _ _, by decide⟩

/-- AP-5's answer to a READ 9: a pair for 13. -/
def ap5 : List Byte := [0x55, 0x03, 0xBA, 0x0D, 0x02, 0x00, 0x0D, 0x34, 0x12, 0x69, 0x91, 0xDC, 0xC2]

/-- A READ that ends Applied with a value in each requested register (P2), one that leaves the requested register without
(AP-5), and one that is rejected. -/
theorem witness_GetVariablesReadsAfterApplied :
    (BlockInv (demo dev3 [w1Ack]) ∧
      after (exec (.read [6, 7]) (demo dev3 [w1Ack]))
        (fun u => (u.phase, (readReg u.table 6).isSome, (readReg u.table 7).isSome)) = some (.applied, true, true)) ∧
    (BlockInv (demo dev3 [ap5]) ∧
      after (exec (.read [9]) (demo dev3 [ap5])) (fun u => (u.phase, readReg u.table 9)) = some (.applied, none)) ∧
    (BlockInv (demo dev3 [[]]) ∧ after (exec (.read [6, 7]) (demo dev3 [[]])) State.phase = some .rejected) :=
  ⟨⟨demo_inv (by decide), by decide⟩, ⟨demo_inv (by decide), by decide⟩, demo_inv (by decide), by decide⟩

/-- P4. -/
theorem witness_BaudChangeOrder :
    BlockInv (demo dev3 [eepromFrame]) ∧ Ready (demo dev3 [eepromFrame]) ∧ regByte dev3 1#8 ≠ 255#8 ∧ 0 < 57600 ∧
    (⟨32, 0xE100⟩ : Pattern).width = 8 * regWidth Params.tv Params.tv.baudIndex :=
  ⟨demo_inv (by decide), demo_ready _ _, by decide⟩

theorem witness_HostInputsTakeEffect :
    Params.tv.Valid ∧ Ready (demo dev3 []) ∧ TableOk Params.tv dev3 ∧ ¬ TableOk Params.tv (dev3With 9 ⟨8, 0⟩) ∧
    ¬ TableOk Params.tv [] ∧ (settling none).faultMark = .clear ∧ (settling none).phase = .frameSent ∧ 0 < 57600 :=
  ⟨tv_valid, demo_ready _ _, dev3_ok, by rw [← tableCheck_iff tv_valid]; decide, by rw [← tableCheck_iff tv_valid]; decide,
    by decide⟩

end Sys2Proof.Tests
end

/-! # The state: what an operation can do, and what every step keeps

One inductive, `Performed`, says once what an operation of the host (or a return of the transport) can do to the state; each
claim about every step is then a case analysis of it. A whole transaction is there its split parts one after another (R154),
so what the parts keep, the whole keeps. -/

namespace Sys2Proof.Proofs

open Machine Spec Laws

/-! ## What a check or a build returns

`Returns n P r`: the result `r` satisfies `P` when it is well, and is an outcome of code at most `n` (R130) when it fails.
Codes up to 4 are errors; codes up to 7 are all the block raises, 8 is the registry's (R139). -/

section Returns

variable {α β : Type} {n : Nat}

/-- A good end satisfies `P`, a failure has a code of at most `n` (R130). -/
def Returns (n : Nat) (P : α → Prop) : Except Failure α → Prop
  | .ok a => P a
  | .error f => failureCode f ≤ n

@[simp] theorem returns_ok {P : α → Prop} {a : α} : Returns n P (.ok a) ↔ P a := Iff.rfl

@[simp] theorem returns_error {P : α → Prop} {f : Failure} : Returns n P (.error f) ↔ failureCode f ≤ n := Iff.rfl

theorem Returns.bind {P : α → Prop} {Q : β → Prop} {x : Except Failure α} {g : α → Except Failure β}
    (hx : Returns n P x) (hg : ∀ a, P a → Returns n Q (g a)) : Returns n Q (x >>= g) := by
  cases x with
  | error f => exact hx
  | ok a => exact hg a hx

/-- A sequence whose first part matters only for its failures. -/
theorem Returns.andThen {P : α → Prop} {Q : β → Prop} {x : Except Failure α} {g : α → Except Failure β}
    (hx : Returns n P x) (hg : ∀ a, Returns n Q (g a)) : Returns n Q (x >>= g) :=
  hx.bind fun a _ => hg a

end Returns

/-! ## The operand checks and the payloads -/

theorem checkIndex_returns (p : Params) (i : Byte) : Returns 7 (fun _ => True) (checkIndex p i) := by
  rw [checkIndex_eq]
  split <;> simp [failureCode]

theorem requireWritable_returns (i : Byte) : Returns 7 (fun _ => isFixed i = false) (requireWritable i) := by
  unfold requireWritable invalid
  split <;> simp_all [failureCode]

theorem checkValue_returns (p : Params) (i : Byte) (v : Pattern) :
    Returns 7 (fun _ => v.width = 8 * regWidth p i) (checkValue p i v) := by
  unfold checkValue invalid
  split <;> simp_all [failureCode]

theorem checkDeviceId_returns (id : Byte) : Returns 7 (fun _ => True) (checkDeviceId id) := by
  rw [checkDeviceId_eq]
  split <;> simp [failureCode]

theorem headerByte_returns (t : Table) (i : Byte) : Returns 7 (fun _ => True) (headerByte t i) := by
  unfold headerByte
  split <;> simp [failureCode]

theorem requireUnicast_returns (t : Table) : Returns 7 (fun _ => True) (requireUnicast t) :=
  (headerByte_returns t 1#8).andThen checkDeviceId_returns

theorem requireNonempty_returns {α : Type} (l : List α) : Returns 7 (fun _ => True) (requireNonempty l) := by
  rw [requireNonempty_eq]
  split <;> simp [failureCode]

theorem checkIndices_returns (p : Params) (is : List Byte) : Returns 7 (fun _ => True) (checkIndices p is) := by
  induction is with
  | nil => trivial
  | cons i r ih => exact (checkIndex_returns p i).andThen fun _ => ih

theorem checkWritables_returns (p : Params) (is : List Byte) : Returns 7 (fun _ => True) (checkWritables p is) := by
  induction is with
  | nil => trivial
  | cons i r ih =>
    exact (checkIndex_returns p i).andThen fun _ => (requireWritable_returns i).andThen fun _ => ih

theorem checkTargets_returns (p : Params) (i : Byte) (ts : List (Byte × Pattern)) :
    Returns 7 (fun _ => True) (checkTargets p i ts) := by
  induction ts with
  | nil => trivial
  | cons x r ih =>
    exact (checkDeviceId_returns x.1).andThen fun _ => (checkValue_returns p i x.2).andThen fun _ => ih

theorem pairsFromT_returns (p : Params) (t : Table) (is : List Byte) :
    Returns 7 (fun _ => True) (pairsFromT p t is) := by
  rw [pairsFromT_eq]
  split <;> simp [failureCode]

theorem encodeFrame_returns (p : Params) (t : Table) (c : Command) (payload : List Byte) :
    Returns 7 (fun _ => True) (encodeFrame p t c payload) := by
  unfold encodeFrame
  split
  · simp [failureCode]
  · exact (headerByte_returns t 0#8).andThen fun _ => (headerByte_returns t 1#8).andThen fun _ =>
      (headerByte_returns t 2#8).andThen fun _ => (headerByte_returns t 5#8).andThen fun _ => trivial

theorem writePayload_returns (p : Params) (t : Table) (is : List Byte) :
    Returns 7 (fun _ => True) (writePayload p t is) :=
  (requireUnicast_returns t).andThen fun _ => (requireNonempty_returns is).andThen fun _ =>
    (checkWritables_returns p is).andThen fun _ => pairsFromT_returns p t is

/-! ## The builds -/

/-- What every command's build gives: the prediction of its row (R57, R92), whose length is within 10..255 (R20). -/
structure Predicted (p : Params) (i : Instr) (b : Built) : Prop where
  eq : b.2 = prediction p i
  len : p.Valid → ∀ a, b.2 = some a → 10 ≤ a.len ∧ a.len ≤ 255

theorem predicted_none {p : Params} {i : Instr} (f : List Byte) (h : prediction p i = none) : Predicted p i (f, none) where
  eq := h.symm
  len _ _ ha := by cases ha

theorem predicted_some {p : Params} {i : Instr} {a : AckPrediction} (f : List Byte) (h : prediction p i = some a)
    (hl : p.Valid → 10 ≤ a.len ∧ a.len ≤ 255) : Predicted p i (f, some a) where
  eq := h.symm
  len hp _ ha := by cases ha; exact hl hp

theorem buildMaint_returns {p : Params} {i : Instr} {a : Option AckPrediction} (t : Table) (c : Command)
    (h : ∀ f, Predicted p i (f, a)) : Returns 7 (Predicted p i) (buildMaint p t c a) :=
  (requireUnicast_returns t).andThen fun _ => (encodeFrame_returns p t c []).andThen h

theorem buildMaint_pureAck_returns {p : Params} {i : Instr} (t : Table) (c : Command) (h : prediction p i = pureAck) :
    Returns 7 (Predicted p i) (buildMaint p t c pureAck) :=
  buildMaint_returns t c fun f => predicted_some f h fun _ => by decide

theorem buildMaint_none_returns {p : Params} {i : Instr} (t : Table) (c : Command) (h : prediction p i = none) :
    Returns 7 (Predicted p i) (buildMaint p t c none) :=
  buildMaint_returns t c fun f => predicted_none f h

theorem buildRead_returns (p : Params) (t : Table) (is : List Byte) :
    Returns 7 (Predicted p (.read is)) (buildRead p t is) := by
  refine (requireUnicast_returns t).andThen fun _ => (requireNonempty_returns is).andThen fun _ =>
    (checkIndices_returns p is).andThen fun _ => ?_
  split
  · simp [invalid, failureCode]
  · next hlen =>
    refine (encodeFrame_returns p t .read is).andThen fun f => predicted_some f rfl fun _ => ?_
    rw [readAckLen_eq] at hlen ⊢
    exact ⟨by simp, by simpa using hlen⟩

/-- Every build ends in its command's prediction or in an outcome of the block, never the registry's (R92, R139). -/
theorem build_returns (p : Params) (t : Table) (i : Instr) : Returns 7 (Predicted p i) (build p t i) := by
  cases i with
  | ping => exact buildMaint_pureAck_returns t _ rfl
  | eepromWrite => exact buildMaint_pureAck_returns t _ rfl
  | eepromWriteAck => exact buildMaint_pureAck_returns t _ rfl
  | resetEncoder => exact buildMaint_pureAck_returns t _ rfl
  | reboot => exact buildMaint_none_returns t _ rfl
  | hardReset => exact buildMaint_none_returns t _ rfl
  | enterBootloader => exact buildMaint_none_returns t _ rfl
  | scanSensors =>
    refine buildMaint_returns t _ fun f => predicted_some f rfl fun hp => ?_
    obtain ⟨-, -, -, -, -, -, hscan, -⟩ := hp
    exact hscan
  | write is =>
    exact (writePayload_returns p t is).andThen fun payload => (encodeFrame_returns p t .write payload).andThen fun f =>
      predicted_none f rfl
  | writeAck is =>
    exact (writePayload_returns p t is).andThen fun payload => (encodeFrame_returns p t .writeAck payload).andThen fun f =>
      predicted_some f rfl fun _ => by decide
  | read is => exact buildRead_returns p t is
  | syncWrite i ts =>
    exact (checkIndex_returns p i).andThen fun _ => (requireWritable_returns i).andThen fun _ =>
      (requireNonempty_returns ts).andThen fun _ => (checkTargets_returns p i ts).andThen fun _ =>
        (encodeFrame_returns p (scratchTable p) .syncWrite _).andThen fun f => predicted_none f rfl
  | updateId new =>
    exact (requireUnicast_returns t).andThen fun _ => (checkDeviceId_returns new).andThen fun _ =>
      (encodeFrame_returns p t .write _).andThen fun f => predicted_none f rfl
  | syncRead => simp [build, buildSyncRead, failureCode]
  | bulkWrite => simp [build, buildBulkWrite, failureCode]
  | bulkRead => simp [build, buildBulkRead, failureCode]

theorem predicted_of_build {p : Params} {t : Table} {i : Instr} {b : Built} (h : build p t i = .ok b) : Predicted p i b := by
  simpa [h] using build_returns p t i

/-- Only READ has an acknowledgment whose pairs are applied (R57, R98). -/
theorem eq_read_of_prediction {p : Params} {i : Instr} {n : Nat} (h : prediction p i = some ⟨n, .readData⟩) :
    ∃ is, i = .read is := by
  cases i with
  | read is => exact ⟨is, rfl⟩
  | _ => simp [prediction] at h

/-! ## The acknowledgment -/

theorem parsePairsAt_returns (p : Params) (fuel k : Nat) (b : List Byte) :
    Returns 4 (fun _ => True) (parsePairsAt p fuel k b) := by
  induction fuel generalizing k b with
  | zero => cases b <;> simp [parsePairsAt, failureCode]
  | succ fuel ih =>
    cases b with
    | nil => trivial
    | cons i rest =>
      rw [parsePairsAt]
      split
      · simp [failureCode]
      · split
        · simp [failureCode]
        · exact (ih _ _).andThen fun _ => trivial

theorem applyAck_returns (p : Params) (t : Table) (d : DecodedFrame) : Returns 4 (fun _ => True) (applyAck p t d) :=
  (parsePairsAt_returns p _ 0 d.payload).andThen fun _ => trivial

theorem decodeAndValidate_returns (rx : List Byte) (n : Nat) : Returns 4 (fun _ => True) (decodeAndValidate rx n) := by
  rw [decodeAndValidate_eq]
  split
  · simp [failureCode]
  · split <;> simp [failureCode]

/-- The ends of the receive step (R153): rejected with an error, or Applied, the table changed only by the pairs of a READ
acknowledgment (R98). -/
theorem receive_cases (a : AckPrediction) (rx : List Byte) (s : State) :
    (∃ f, failureCode f ≤ 4 ∧ receive a rx s = rejectCommand f { s with ackLatch := none }) ∨
    (∃ d, receive a rx s = completeCommand (.frame d) { s with ackLatch := none }) ∨
    (∃ d t, a.kind = .readData ∧ applyAck s.params s.table d = .ok t ∧
      receive a rx s = completeCommand (.frame d) { s with ackLatch := none, table := t }) := by
  have hd := decodeAndValidate_returns rx a.len
  unfold receive
  cases hx : decodeAndValidate rx a.len with
  | error f => exact .inl ⟨f, by simpa [hx] using hd, rfl⟩
  | ok d =>
    cases hk : a.kind with
    | noData => exact .inr (.inl ⟨d, rfl⟩)
    | raw => exact .inr (.inl ⟨d, rfl⟩)
    | readData =>
      have ht := applyAck_returns s.params s.table d
      cases hy : applyAck s.params s.table d with
      | error f => exact .inl ⟨f, by simpa [hy] using ht, by simp [hy]⟩
      | ok t => exact .inr (.inr ⟨d, t, rfl, hy, by simp [hy]⟩)

/-! ## The parts of a split transaction -/

/-- The transport's `sleep` returned (R154): nothing is awaited, the transaction is over, or the read begins. -/
theorem settleDone_cases (s : State) :
    settleDone s = s ∨
    (s.phase = .frameSent ∧ s.ackLatch = none ∧ settleDone s = completeCommand .empty (settle s)) ∨
    (∃ a, s.phase = .frameSent ∧ s.ackLatch = some a ∧ settleDone s = { settle s with phase := .awaitingAck }) := by
  unfold settleDone
  split
  · next hp _ =>
    cases ha : s.ackLatch with
    | none => exact .inr (.inl ⟨hp, rfl, rfl⟩)
    | some a => exact .inr (.inr ⟨a, hp, rfl, rfl⟩)
  · exact .inl rfl

/-- The transport's `read` returned (R154): nothing is awaited, or the receive step runs on the latched prediction (R158). -/
theorem readDone_cases (s : State) :
    readDone s = s ∨
    (∃ a, s.phase = .awaitingAck ∧ s.ackLatch = some a ∧
      readDone s = receive a (rxBytes a.len s) (boundedRead a.len s)) := by
  unfold readDone
  split
  · next hp =>
    cases ha : s.ackLatch with
    | none => exact .inl rfl
    | some a => exact .inr ⟨a, hp, rfl, rfl⟩
  · exact .inl rfl

@[simp] theorem settleDone_table (s : State) : (settleDone s).table = s.table := by
  rcases settleDone_cases s with h | ⟨-, -, h⟩ | ⟨_, -, -, h⟩ <;> simp [h]

@[simp] theorem settleDone_ackLatch (s : State) : (settleDone s).ackLatch = s.ackLatch := by
  rcases settleDone_cases s with h | ⟨-, -, h⟩ | ⟨_, -, -, h⟩ <;> simp [h]

@[simp] theorem settleDone_faultMark (s : State) : (settleDone s).faultMark = s.faultMark := by
  rcases settleDone_cases s with h | ⟨-, -, h⟩ | ⟨_, -, -, h⟩ <;> simp [h]

/-- An error, as against a fault, leaves FAULT (R131). -/
theorem markFault_of_error {f : Failure} (h : failureCode f ≤ 4) (m : FaultMark) : markFault f m = m := by
  rw [markFault_eq, if_neg (by omega)]

/-- The receive step ends in no fault (R130). -/
@[simp] theorem readDone_faultMark (s : State) : (readDone s).faultMark = s.faultMark := by
  rcases readDone_cases s with h | ⟨a, -, -, h⟩
  · rw [h]
  · rw [h]
    rcases receive_cases a (rxBytes a.len s) (boundedRead a.len s) with ⟨f, hf, hr⟩ | ⟨d, hr⟩ | ⟨d, t, -, -, hr⟩
    · simp [hr, markFault_of_error hf]
    · simp [hr]
    · simp [hr]

/-- The end of a read changes T only by applying a READ acknowledgment (R98, R17). -/
theorem readDone_table {s : State} (h : (readDone s).table ≠ s.table) :
    s.phase = .awaitingAck ∧ (∃ n, s.ackLatch = some ⟨n, .readData⟩) ∧ (readDone s).phase = .applied := by
  rcases readDone_cases s with hs | ⟨⟨n, k⟩, hp, ha, hs⟩
  · exact absurd (congrArg State.table hs) h
  · rcases receive_cases ⟨n, k⟩ (rxBytes n s) (boundedRead n s) with ⟨f, -, hr⟩ | ⟨d, hr⟩ | ⟨d, t, hk, -, hr⟩
    · simp [hs, hr] at h
    · simp [hs, hr] at h
    · obtain rfl : k = .readData := hk
      exact ⟨hp, ⟨n, ha⟩, by simp [hs, hr]⟩

/-- A whole transaction is its split parts one after another (R154). -/
theorem runBuilt_eq_parts (b : Built) (s : State) : runBuilt b s = readDone (settleDone (transmit b s)) := by
  obtain ⟨f, a⟩ := b
  cases a with
  | none => rfl
  | some a => rfl

/-! ## What an operation can do, said once -/

/-- The table after a local operation on `t` that ended well: `t`, or with one register set within its guards (R67), or a
fresh one (R71). -/
inductive TableAfter (p : Params) (t : Table) : HostOp → Table → Prop
  | same {op : HostOp} : TableAfter p t op t
  | set {i : Byte} {v : Pattern} (hf : isFixed i = false) (hw : v.width = 8 * regWidth p i) :
    TableAfter p t (.set i v) (writeReg t i v)
  | attach {id : Byte} : TableAfter p t (.attach id) (freshTable p id)

/-- What an operation of the host, or a return of the transport, does to the state when the model does not stop. -/
inductive Performed (s : State) : HostOp → State → Prop
  /-- Busy (R138), or a local operation that failed (R72): only the report. -/
  | reported {op : HostOp} {f : Failure} (hf : failureCode f ≤ 7) : Performed s op (raiseFailure f s)
  /-- A command whose build failed (R131). -/
  | rejected {op : HostOp} {f : Failure} (hr : Ready s) (hf : failureCode f ≤ 7) : Performed s op (rejectCommand f s)
  /-- The first part of a split transaction (R154). -/
  | transmitted {i : Instr} {b : Built} (hb : build s.params s.table i = .ok b) : Performed s (.begin i) (transmit b s)
  /-- A whole transaction (R153). -/
  | transacted {i : Instr} {b : Built} (hb : build s.params s.table i = .ok b) :
    Performed s (.command i) (readDone (settleDone (transmit b s)))
  /-- The settle interval's end (R156). -/
  | settled : Performed s .settled (settleDone s)
  /-- The bounded read's end (R155). -/
  | received : Performed s .received (readDone s)
  /-- A local operation that ended well (R72). -/
  | answered {op : HostOp} {t : Table} {d : Data} (ht : TableAfter s.params s.table op t) :
    Performed s op { s with table := t, result := .ok d }
  /-- The host handed over a table (R11). -/
  | handed {t : Table} (ht : tableCheck s.params t = true) : Performed s (.handTable t) { s with table := t }
  /-- The host set its line rate (R160). -/
  | rated {b : Nat} (hb : 0 < b) : Performed s (.setBaud b) { s with baud := b }

theorem performed_transact (i : Instr) (s : State) :
    Performed s (.command i) (transact i (build s.params s.table i) s) := by
  have hb := build_returns s.params s.table i
  unfold transact
  split
  · exact .reported le_rfl
  · next hr =>
    cases h : build s.params s.table i with
    | error f => exact .rejected (ready_of_inFlight_false (by simpa using hr)) (by simpa [h] using hb)
    | ok b =>
      show Performed s (.command i) (runBuilt b s)
      rw [runBuilt_eq_parts]
      exact .transacted h

theorem performed_begin (i : Instr) (s : State) : Performed s (.begin i) (opBegin i s) := by
  have hb := build_returns s.params s.table i
  unfold opBegin beginTransaction
  split
  · exact .reported le_rfl
  · next hr =>
    cases h : build s.params s.table i with
    | error f => exact .rejected (ready_of_inFlight_false (by simpa using hr)) (by simpa [h] using hb)
    | ok b => exact .transmitted h

theorem performed_localOp {s : State} {op : HostOp} {r : Except Failure (Table × Data)}
    (h : Returns 7 (fun x => TableAfter s.params s.table op x.1) r) : Performed s op (localOp op r s) := by
  unfold localOp
  split
  · exact .reported le_rfl
  · cases r with
    | error f => exact .reported h
    | ok x => exact .answered h

theorem setResult_returns (p : Params) (t : Table) (i : Byte) (v : Pattern) :
    Returns 7 (fun x => TableAfter p t (.set i v) x.1) (setResult p t i v) :=
  (checkIndex_returns p i).andThen fun _ => (requireWritable_returns i).bind fun _ hf =>
    (checkValue_returns p i v).bind fun _ hw => .set hf hw

theorem getResult_returns (p : Params) (t : Table) (i : Byte) :
    Returns 7 (fun x => TableAfter p t (.get i) x.1) (getResult p t i) := by
  refine (checkIndex_returns p i).andThen fun _ => ?_
  cases readReg t i with
  | none => simp [failureCode]
  | some v => exact .same

theorem byteWidthResult_returns (p : Params) (t : Table) (i : Byte) :
    Returns 7 (fun x => TableAfter p t (.byteWidth i) x.1) (byteWidthResult p t i) :=
  (checkIndex_returns p i).andThen fun _ => .same

theorem encodingResult_returns (p : Params) (t : Table) (i : Byte) :
    Returns 7 (fun x => TableAfter p t (.encoding i) x.1) (encodingResult p t i) := by
  unfold encodingResult
  cases regEnc p i with
  | none => simp [invalid, failureCode]
  | some e => exact .same

theorem attachResult_returns (p : Params) (t : Table) (id : Byte) :
    Returns 7 (fun x => TableAfter p t (.attach id) x.1) (attachResult p id) :=
  (checkDeviceId_returns id).andThen fun _ => .attach

theorem performed_handTable {s t : State} {u : Table} (h : opHandTable u s = .next t) : Performed s (.handTable u) t := by
  unfold opHandTable at h
  split at h
  · cases h; exact .reported le_rfl
  · split at h
    · next hu => cases h; exact .handed hu
    · cases h

theorem performed_setBaud {s t : State} {b : Nat} (h : opSetBaud b s = .next t) : Performed s (.setBaud b) t := by
  unfold opSetBaud at h
  split at h
  · cases h
  · next hb => cases h; exact .rated (Nat.pos_of_ne_zero hb)

/-- Every operation that ends in a next state did one of the things `Performed` lists. -/
theorem performed_of_execOp {s t : State} {op : HostOp} (h : execOp op s = .next t) : Performed s op t := by
  cases op with
  | command i => rw [execOp, exec_eq_transact] at h; cases h; exact performed_transact i s
  | begin i => cases h; exact performed_begin i s
  | settled => cases h; exact .settled
  | received => cases h; exact .received
  | set i v => cases h; exact performed_localOp (setResult_returns _ _ i v)
  | get i => cases h; exact performed_localOp (getResult_returns _ _ i)
  | byteWidth i => cases h; exact performed_localOp (byteWidthResult_returns _ _ i)
  | encoding i => cases h; exact performed_localOp (encodingResult_returns _ _ i)
  | attach id => cases h; exact performed_localOp (attachResult_returns _ _ id)
  | handTable u => exact performed_handTable h
  | setBaud b => exact performed_setBaud h

/-- A step waits, or performs the oldest operation issued (R18). -/
theorem step_cases {s t : State} (h : step s = .next t) :
    (s.pending = [] ∧ t = s) ∨
    (∃ op rest, s.pending = op :: rest ∧ Performed { s with pending := rest } op t) := by
  unfold step stepPending at h
  split at h
  · next hp => cases h; exact .inl ⟨hp, rfl⟩
  · next op rest hp => exact .inr ⟨op, rest, hp, performed_of_execOp h⟩

/-! ## The invariant -/

theorem blockInv_resetWith {p : Params} (hp : p.Valid) : BlockInv (State.resetWith p) where
  params := hp
  table := tableOk_freshTable hp broadcastId
  baud := by
    obtain ⟨-, -, -, -, -, -, -, hbaud, -⟩ := hp
    exact hbaud
  latch := ⟨rfl, rfl⟩
  latchLen _ ha := by cases ha
  mark _ hf := by cases hf
  result _ hr := by cases hr

/-- Between transactions nothing is latched and no settle interval pends (R153). -/
theorem quiet_of_ready {s : State} (h : BlockInv s) (hr : Ready s) : s.settlePending = false ∧ s.ackLatch = none := by
  obtain ⟨hs, ha⟩ := hr
  have hl := h.latch
  unfold LatchOk at hl
  split at hl
  · contradiction
  · contradiction
  all_goals exact hl

theorem not_unknownDevice {f : Failure} (hf : failureCode f ≤ 7) (id : Byte) :
    Result.failed f ≠ .failed (.unknownDevice id) := by
  rintro ⟨⟩
  simp [failureCode] at hf

/-- FAULT holds a fault's code after any report (R24, R131). -/
theorem markFault_mark {m : FaultMark} (h : ∀ f, m = .set f → failureCode f = 6 ∨ failureCode f = 7) (g f : Failure)
    (hf : markFault g m = .set f) : failureCode f = 6 ∨ failureCode f = 7 := by
  rw [markFault_eq] at hf
  split at hf
  · next hg => cases hf; exact hg
  · exact h f hf

theorem blockInv_raiseFailure {s : State} {f : Failure} (h : BlockInv s) (hf : failureCode f ≤ 7) :
    BlockInv (raiseFailure f s) :=
  { h with mark := markFault_mark h.mark f, result := not_unknownDevice hf }

/-- A command's end, rejected: what stood before it, but for PHASE, satisfied the invariant of a quiet block. -/
theorem blockInv_rejectCommand {s : State} {f : Failure} (h : BlockInv { s with phase := .idle })
    (hf : failureCode f ≤ 7) : BlockInv (rejectCommand f s) :=
  { h with mark := markFault_mark h.mark f, result := not_unknownDevice hf }

/-- A command's end, Applied. -/
theorem blockInv_completeCommand {s : State} (d : Data) (h : BlockInv { s with phase := .idle }) :
    BlockInv (completeCommand d s) :=
  { h with result := nofun }

theorem blockInv_idle {s : State} (h : BlockInv s) (hr : Ready s) : BlockInv { s with phase := .idle } :=
  have hquiet := quiet_of_ready h hr
  { h with latch := hquiet }

theorem blockInv_transmit {s : State} {b : Built} (h : BlockInv s)
    (hb : ∀ a, b.2 = some a → 10 ≤ a.len ∧ a.len ≤ 255) : BlockInv (transmit b s) :=
  { h with latch := rfl, latchLen := hb }

theorem blockInv_settleDone {s : State} (h : BlockInv s) : BlockInv (settleDone s) := by
  rcases settleDone_cases s with hs | ⟨-, ha, hs⟩ | ⟨a, -, ha, hs⟩
  · rwa [hs]
  · rw [hs]
    exact blockInv_completeCommand _ { h with latch := ⟨rfl, ha⟩ }
  · rw [hs]
    exact { h with latch := ⟨rfl, by simp [ha]⟩ }

theorem blockInv_readDone {s : State} (h : BlockInv s) : BlockInv (readDone s) := by
  rcases readDone_cases s with hs | ⟨a, hp, -, hs⟩
  · rwa [hs]
  · have hsettled : s.settlePending = false := by
      have hl := h.latch
      rw [LatchOk, hp] at hl
      exact hl.1
    have hquiet : BlockInv { boundedRead a.len s with ackLatch := none, phase := .idle } :=
      { h with latch := ⟨hsettled, rfl⟩, latchLen := nofun }
    rw [hs]
    rcases receive_cases a (rxBytes a.len s) (boundedRead a.len s) with ⟨f, hf, hr⟩ | ⟨d, hr⟩ | ⟨d, t, -, ht, hr⟩
    · rw [hr]
      exact blockInv_rejectCommand hquiet (by omega)
    · rw [hr]
      exact blockInv_completeCommand _ hquiet
    · rw [hr]
      exact blockInv_completeCommand _ { hquiet with table := tableOk_applyAck h.table ht }

theorem TableAfter.tableOk {p : Params} {t u : Table} {op : HostOp} (h : TableAfter p t op u) (hp : p.Valid)
    (ht : TableOk p t) : TableOk p u := by
  cases h with
  | same => exact ht
  | set hf hw => exact tableOk_writeReg ht hf hw
  | attach => exact tableOk_freshTable hp _

theorem Performed.blockInv {s t : State} {op : HostOp} (h : Performed s op t) (hs : BlockInv s) : BlockInv t := by
  cases h with
  | reported hf => exact blockInv_raiseFailure hs hf
  | rejected hr hf => exact blockInv_rejectCommand (blockInv_idle hs hr) hf
  | transmitted hb => exact blockInv_transmit hs ((predicted_of_build hb).len hs.params)
  | transacted hb =>
    exact blockInv_readDone (blockInv_settleDone (blockInv_transmit hs ((predicted_of_build hb).len hs.params)))
  | settled => exact blockInv_settleDone hs
  | received => exact blockInv_readDone hs
  | answered ht => exact { hs with table := ht.tableOk hs.params hs.table, result := nofun }
  | handed ht => exact { hs with table := tableOk_of_check ht }
  | rated hb => exact { hs with baud := hb }

/-- Settles O44: each end of an operation that `Performed` lists keeps the invariant. -/
theorem stepKeepsTheInvariant : Obligations.StepKeepsTheInvariant := by
  intro s t hs h
  rcases step_cases h with ⟨-, rfl⟩ | ⟨op, rest, -, hop⟩
  · exact hs
  · exact hop.blockInv { hs with }

/-- Settles O43: the placeholder is a register table (R28, R151), and the rest of the reset state is a literal. -/
theorem invariantHoldsAtReset : Obligations.InvariantHoldsAtReset :=
  ⟨fun _ => blockInv_resetWith, blockInv_resetWith (by decide)⟩

/-! ## FAULT -/

/-- FAULT is not cleared, and changes only with a fault that RESULT holds too (R24, R143). -/
def FaultKept (s t : State) : Prop :=
  (s.faultMark ≠ .clear → t.faultMark ≠ .clear) ∧
  (t.faultMark ≠ s.faultMark →
    ∃ f, t.result = .failed f ∧ (failureCode f = 6 ∨ failureCode f = 7) ∧ t.faultMark = .set f)

theorem faultKept_of_eq {s t : State} (h : t.faultMark = s.faultMark) : FaultKept s t :=
  ⟨fun hs => by rwa [h], fun hne => absurd h hne⟩

/-- A report of a failure, by whichever operation (R131, R142). -/
theorem faultKept_of_report {s t : State} {f : Failure} (hr : t.result = .failed f)
    (hm : t.faultMark = markFault f s.faultMark) : FaultKept s t := by
  rw [markFault_eq] at hm
  by_cases hf : failureCode f = 6 ∨ failureCode f = 7
  · rw [if_pos hf] at hm
    exact ⟨fun _ => by simp [hm], fun _ => ⟨f, hr, hf, hm⟩⟩
  · rw [if_neg hf] at hm
    exact faultKept_of_eq hm

theorem Performed.faultKept {s t : State} {op : HostOp} (h : Performed s op t) : FaultKept s t := by
  cases h with
  | reported => exact faultKept_of_report rfl rfl
  | rejected => exact faultKept_of_report rfl rfl
  | transmitted => exact faultKept_of_eq rfl
  | transacted => exact faultKept_of_eq (by simp)
  | settled => exact faultKept_of_eq (settleDone_faultMark s)
  | received => exact faultKept_of_eq (readDone_faultMark s)
  | answered => exact faultKept_of_eq rfl
  | handed => exact faultKept_of_eq rfl
  | rated => exact faultKept_of_eq rfl

/-- Settles O46: only a report of a fault touches FAULT. -/
theorem faultMarkIsSticky : Obligations.FaultMarkIsSticky := by
  intro s t h
  rcases step_cases h with ⟨-, rfl⟩ | ⟨op, rest, -, hop⟩
  · exact faultKept_of_eq rfl
  · exact hop.faultKept

/-! ## The table -/

theorem TableAfter.changed {p : Params} {t u : Table} {op : HostOp} (h : TableAfter p t op u) (hne : u ≠ t) :
    (∃ i v, op = .set i v) ∨ (∃ id, op = .attach id) := by
  cases h with
  | same => contradiction
  | set => exact .inl ⟨_, _, rfl⟩
  | attach => exact .inr ⟨_, rfl⟩

/-- Settles O48: of the ends `Performed` lists, these alone touch T. -/
theorem onlySetAttachAndReadChangeTheTable : Obligations.OnlySetAttachAndReadChangeTheTable := by
  intro s t op h hne
  cases performed_of_execOp h with
  | reported => simp at hne
  | rejected => simp at hne
  | transmitted => simp at hne
  | @transacted i b hb =>
    have hread : (readDone (settleDone (transmit b s))).table ≠ (settleDone (transmit b s)).table := by simpa using hne
    obtain ⟨-, ⟨n, hlatch⟩, happlied⟩ := readDone_table hread
    have hpred := (predicted_of_build hb).eq
    rw [settleDone_ackLatch, transmit_ackLatch, hpred] at hlatch
    obtain ⟨is, rfl⟩ := eq_read_of_prediction hlatch
    exact .inr (.inr (.inr (.inl ⟨is, rfl, happlied⟩)))
  | settled => simp at hne
  | received =>
    obtain ⟨hp, hlatch, happlied⟩ := readDone_table hne
    exact .inr (.inr (.inr (.inr ⟨rfl, hp, hlatch, happlied⟩)))
  | answered ht => exact (ht.changed hne).imp_right .inl
  | handed => exact .inr (.inr (.inl ⟨_, rfl⟩))
  | rated => simp at hne

/-- SET between transactions of a fixed register (R67): ReadOnly, whatever the value. -/
theorem execOp_set_fixed {s : State} (hp : s.params.Valid) (hr : Ready s) {i : Byte} (hi : i = 0#8 ∨ i = 2#8)
    (v : Pattern) : execOp (.set i v) s = .next { s with result := .failed (.validation (.readOnly i)) } := by
  have hdefined : ¬ s.params.regCount ≤ i.toNat := by
    have hcount := validParams_regCount hp
    have hlow : i.toNat < 6 := by rcases hi with rfl | rfl <;> decide
    omega
  have hset : setResult s.params s.table i v = .error (.validation (.readOnly i)) := by
    unfold setResult
    rw [checkIndex_eq, requireWritable_eq, if_neg hdefined, if_pos hi]
    rfl
  rw [execOp, opSet, hset, localOp_of_ready hr]
  simp [failed, failureCode]

/-- Settles O50: the constants are part of the invariant, and SET checks for them before it writes. -/
theorem fixedRegistersKeepTheirConstants : Obligations.FixedRegistersKeepTheirConstants := by
  refine ⟨fun s t hs h => ?_, fun s i v hs hr hi => execOp_set_fixed hs.params hr hi v⟩
  obtain ⟨-, -, hmarker, hproduct, -, -⟩ := (stepKeepsTheInvariant s t hs h).table
  exact ⟨hmarker, hproduct⟩

/-! ## Parameters, line rate, issued operations -/

/-- What only the host's own inputs change. -/
structure SameSetup (s t : State) : Prop where
  params : t.params = s.params
  baud : t.baud = s.baud
  pending : t.pending = s.pending

theorem SameSetup.trans {s t u : State} (h : SameSetup s t) (h' : SameSetup t u) : SameSetup s u where
  params := h'.params.trans h.params
  baud := h'.baud.trans h.baud
  pending := h'.pending.trans h.pending

theorem sameSetup_settleDone (s : State) : SameSetup s (settleDone s) := by
  rcases settleDone_cases s with h | ⟨-, -, h⟩ | ⟨_, -, -, h⟩
  all_goals rw [h]; exact ⟨rfl, rfl, rfl⟩

theorem sameSetup_readDone (s : State) : SameSetup s (readDone s) := by
  rcases readDone_cases s with h | ⟨a, -, -, h⟩
  · rw [h]; exact ⟨rfl, rfl, rfl⟩
  · rcases receive_cases a (rxBytes a.len s) (boundedRead a.len s) with ⟨f, -, hr⟩ | ⟨d, hr⟩ | ⟨d, t, -, -, hr⟩
    all_goals rw [h, hr]; exact ⟨rfl, rfl, rfl⟩

theorem sameSetup_parts (b : Built) (s : State) : SameSetup s (readDone (settleDone (transmit b s))) :=
  have h : SameSetup s (transmit b s) := ⟨rfl, rfl, rfl⟩
  (h.trans (sameSetup_settleDone _)).trans (sameSetup_readDone _)

theorem Performed.setup {s t : State} {op : HostOp} (h : Performed s op t) :
    SameSetup s t ∨ ∃ b, op = .setBaud b ∧ t = { s with baud := b } := by
  cases h with
  | reported => exact .inl ⟨rfl, rfl, rfl⟩
  | rejected => exact .inl ⟨rfl, rfl, rfl⟩
  | transmitted => exact .inl ⟨rfl, rfl, rfl⟩
  | transacted => exact .inl (sameSetup_parts _ s)
  | settled => exact .inl (sameSetup_settleDone s)
  | received => exact .inl (sameSetup_readDone s)
  | answered => exact .inl ⟨rfl, rfl, rfl⟩
  | handed => exact .inl ⟨rfl, rfl, rfl⟩
  | rated => exact .inr ⟨_, rfl, rfl⟩

/-- Settles O47: `setBaud` is the one operation that does not keep the whole setup. -/
theorem parametersNeverChange : Obligations.ParametersNeverChange := by
  intro s t h
  rcases step_cases h with ⟨-, rfl⟩ | ⟨op, rest, hp, hop⟩
  · exact ⟨rfl, fun hne => absurd rfl hne⟩
  · rcases hop.setup with hs | ⟨b, rfl, rfl⟩
    · exact ⟨hs.params, fun hne => absurd hs.baud hne⟩
    · exact ⟨rfl, fun _ => ⟨b, rest, hp, rfl⟩⟩

/-- Settles O52: a command is one transaction, and no transaction changes the setup. -/
theorem commandsAlwaysAnswer : Obligations.CommandsAlwaysAnswer := by
  intro s i
  rcases (performed_transact i s).setup with hs | ⟨b, hb, -⟩
  · exact ⟨_, exec_eq_transact i s, hs.params, hs.baud, hs.pending⟩
  · cases hb

/-! ## Reset, the step and the host's inputs -/

/-- Settles O41: the reset state is a literal. -/
theorem resetLeavesTheBlockIdle : Obligations.ResetLeavesTheBlockIdle :=
  ⟨fun _ => ⟨rfl, rfl, rfl, rfl, rfl⟩, rfl, rfl, rfl, rfl, rfl⟩

theorem step_of_pending {s : State} {op : HostOp} {rest : List HostOp} (h : s.pending = op :: rest) :
    step s = execOp op { s with pending := rest } := by
  rw [step, stepPending, h]

theorem step_of_no_pending {s : State} (h : s.pending = []) : step s = .next s := by
  rw [step, stepPending, h]

/-- A word that decodes to a command puts it in front of what the host has issued (R153). -/
theorem withFetchWord_of_decode {s : State} {nbits w : Nat} {i : Instr}
    (h : decode s.params (frameOfWord nbits w) = .ok i) :
    s.withFetchWord nbits w = { s with pending := .command i :: s.pending } := by
  rw [State.withFetchWord, decodeWordWith, h]

/-- Settles O45: the step by the list of issued operations, a placed word in front of it. -/
theorem stepRunsTheIssuedCommand : Obligations.StepRunsTheIssuedCommand := by
  refine ⟨fun s op rest h => step_of_pending h, fun s i rest h => step_of_pending h, fun s h => step_of_no_pending h, ?_⟩
  intro s nbits w i h
  rw [withFetchWord_of_decode h]
  exact step_of_pending (s := { s with pending := .command i :: s.pending }) rfl

theorem inFlight_of_phase {s : State} (h : s.phase = .frameSent ∨ s.phase = .awaitingAck) : inFlight s.phase = true := by
  rcases h with h | h <;> rw [h] <;> rfl

theorem opHandTable_of_ready {s : State} (hr : Ready s) (t : Table) :
    opHandTable t s = if tableCheck s.params t then .next { s with table := t } else .fault .notATable := by
  rw [opHandTable, if_neg (by simp [inFlight_false_of_ready hr])]

theorem opHandTable_of_inFlight {s : State} (h : inFlight s.phase = true) (t : Table) :
    opHandTable t s = .next (failed (.busy (.handTable t)) s) := by
  rw [opHandTable, if_pos h, raiseBusy, raiseFailure_eq]

/-- Settles O56: the host interface's check accepts exactly the register tables. -/
theorem hostInputsTakeEffect : Obligations.HostInputsTakeEffect := by
  refine ⟨fun s t hp hr => ⟨fun ht => ?_, fun ht => ?_⟩, fun s t hclear hflight => ?_, fun s b hb => ?_, fun s => rfl⟩
  · rw [execOp, opHandTable_of_ready hr, if_pos ((tableCheck_iff hp t).mpr ht)]
  · rw [execOp, opHandTable_of_ready hr, if_neg (mt (tableCheck_iff hp t).mp ht)]
  · rw [execOp, opHandTable_of_inFlight (inFlight_of_phase hflight)]
    simp [failed, failureCode]
  · rw [execOp, opSetBaud, if_neg hb.ne']

/-! ## The host's number of a pattern -/

/-- Two's complement by the pattern's top bit (R16). -/
theorem toInt_eq_ite_getLsbD {n : Nat} (x : BitVec (n + 1)) :
    x.toInt = if x.getLsbD n then (x.toNat : Int) - (2 ^ (n + 1) : Nat) else x.toNat := by
  rw [BitVec.toInt_eq_msb_cond, BitVec.msb_eq_getLsbD_last, Nat.add_sub_cancel]

/-- Settles O57: the signed encodings are two's complement, the others read as they are. -/
theorem hostNumberOfAPattern : Obligations.HostNumberOfAPattern :=
  ⟨fun x => ⟨rfl, congrArg HostNumber.int (toInt_eq_ite_getLsbD x)⟩,
    fun x => ⟨rfl, congrArg HostNumber.int (toInt_eq_ite_getLsbD x)⟩,
    fun x => ⟨rfl, congrArg HostNumber.int (toInt_eq_ite_getLsbD x), rfl⟩⟩

end Sys2Proof.Proofs

/-! # Little-endian fields (R31) -/

namespace Sys2Proof.Proofs

open Machine Laws

/-- The value of a byte list, byte `k` weighted by `2 ^ (8 * k)` (R31). -/
theorem leValue_eq_sum_weighted (b : List Byte) :
    leValue b = ((List.range b.length).map (fun k => (b.getD k 0).toNat * 2 ^ (8 * k))).sum := by
  induction b with
  | nil => rfl
  | cons x r ih =>
    -- the weight a byte gets one place further on
    have hweight (k : Nat) : 2 ^ (8 * (k + 1)) = 256 * 2 ^ (8 * k) := by
      rw [Nat.mul_succ, Nat.pow_add, Nat.mul_comm]
    rw [leValue, ih, List.length_cons, List.range_succ_eq_map, List.map_cons, List.sum_cons, List.map_map,
      ← List.sum_map_mul_left]
    simp [Function.comp_def, hweight, Nat.mul_left_comm]

/-- Settles O6: the bytes by the codec's byte law, `256 ^ k` being `2 ^ (8 * k)`; the value by induction on the list, each
further byte moving the weights up by 256. -/
theorem littleEndianFields : Obligations.LittleEndianFields := by
  refine ⟨fun n v k => ⟨le_length n v, fun hk => ?_⟩, leValue_eq_sum_weighted⟩
  rw [Nat.pow_mul]
  exact le_getElem? n v k hk

end Sys2Proof.Proofs

/-! # The encoding: value fields, frames, and the request decoder against the encoder (R45, R50, R53-R58, R62) -/

namespace Sys2Proof.Proofs

open Machine Spec Laws

/-! ## The frame of R45 -/

section Frame

variable (p : Params) (t : Table) (c : Command) (payload : List Byte)

/-- The bytes of a frame that its CRC covers: the header and the payload (R53). -/
def frameBody : List Byte :=
  [0x55#8, regByte t 1#8, p.productId, BitVec.ofNat 8 (10 + payload.length), p.cmdCode.code c, regByte t 5#8] ++ payload

theorem frameFor_eq : frameFor p t c payload = frameBody p t c payload ++ crcField (frameBody p t c payload) := rfl

theorem frameBody_length : (frameBody p t c payload).length = 6 + payload.length := by
  rw [frameBody, List.length_append]
  rfl

theorem frameFor_length : (frameFor p t c payload).length = 10 + payload.length := by
  rw [frameFor_eq, List.length_append, frameBody_length, crcField_length]
  omega

theorem frameFor_take_body :
    (frameFor p t c payload).take ((frameFor p t c payload).length - 4) = frameBody p t c payload := by
  rw [frameFor_eq, List.length_append, crcField_length, Nat.add_sub_cancel, List.take_left]

theorem frameFor_drop_body :
    (frameFor p t c payload).drop ((frameFor p t c payload).length - 4) = crcField (frameBody p t c payload) := by
  rw [frameFor_eq, List.length_append, crcField_length, Nat.add_sub_cancel, List.drop_left]

theorem frameFor_payload :
    ((frameFor p t c payload).drop 6).take ((frameFor p t c payload).length - 10) = payload := by
  rw [frameFor_length, Nat.add_sub_cancel_left]
  exact List.take_left

theorem crcMatches_frameFor : CrcMatches (frameFor p t c payload) := by
  rw [CrcMatches, frameFor_drop_body, frameFor_take_body, leValue_crcField]

/-- The fields the decoder reads in a frame (R85). -/
theorem frameOf_frameFor :
    frameOf (frameFor p t c payload) =
      { marker := 0x55#8, device := regByte t 1#8, product := p.productId, size := BitVec.ofNat 8 (10 + payload.length),
        command := p.cmdCode.code c, status := regByte t 5#8, payload := payload } := by
  rw [frameOf, frameFor_payload]
  rfl

variable {p t c payload}

/-- ENCODE gives the frame of R45, of every payload that fits (R80, R81). -/
theorem encodeFrame_eq_ok_iff (ht : TableOk p t) {f : List Byte} :
    encodeFrame p t c payload = .ok f ↔ 10 + payload.length ≤ 255 ∧ frameFor p t c payload = f := by
  rw [encodeFrame_eq ht]
  split
  · simp only [reduceCtorEq, false_iff]
    omega
  · rw [Except.ok.injEq, and_iff_right (by omega)]

end Frame

/-- Settles O2: the fields of the frame of R45, part by part. -/
theorem encodedFrameLayout : Obligations.EncodedFrameLayout := by
  intro p t c payload f ht h
  obtain ⟨hfits, rfl⟩ := (encodeFrame_eq_ok_iff ht).mp h
  have hlen := frameFor_length p t c payload
  refine ⟨hlen, hlen ▸ hfits, rfl, rfl, rfl, ?_, rfl, rfl, frameFor_payload p t c payload, ?_⟩
  · rw [hlen]
    rfl
  · rw [frameFor_drop_body, frameFor_take_body]
    rfl

/-- Settles O7: a value field is a little-endian field of the register's width. -/
theorem valueFieldReadsBack : Obligations.ValueFieldReadsBack :=
  fun p i v hv => ⟨le_length (regWidth p i) v.toNat, fromLe_le (regWidth p i) v hv⟩

/-! ## The request decoder -/

/-- What the decoder of R82 accepts, and what it makes of it (R86). -/
theorem decodeAndValidate_eq_ok_iff {rx : List Byte} {n : Nat} {d : DecodedFrame} :
    decodeAndValidate rx n = .ok d ↔ 10 ≤ n ∧ rx.length = n ∧ CrcMatches rx ∧ frameOf rx = d := by
  rw [decodeAndValidate_eq]
  by_cases hlen : n < 10 ∨ rx.length ≠ n
  · rw [if_pos hlen]
    simp only [reduceCtorEq, false_iff]
    omega
  · rw [if_neg hlen]
    push Not at hlen
    by_cases hcrc : CrcMatches rx
    · rw [if_neg (not_not_intro hcrc), and_iff_right hlen.1, and_iff_right hlen.2, and_iff_right hcrc, Except.ok.injEq]
    · rw [if_pos hcrc]
      simp [hcrc]

/-- The decoder's command is that of byte 4, its operands those of the payload (R58). -/
theorem decodeRequest_eq_ok_iff {p : Params} {f : List Byte} {r : Request} :
    decodeRequest p f = .ok r ↔
      10 ≤ f.length ∧ CrcMatches f ∧ ∃ c iv, commandOfCode p.cmdCode (frameOf f).command = some c ∧
        decodePayload p c (frameOf f).payload = .ok iv ∧
        { device := (frameOf f).device, product := (frameOf f).product, status := (frameOf f).status,
          instr := iv.1, values := iv.2 } = r := by
  unfold decodeRequest
  cases hd : decodeAndValidate f f.length with
  | error e =>
    have hbad : ¬ (10 ≤ f.length ∧ CrcMatches f) := fun ⟨hlen, hcrc⟩ => by
      rw [decodeAndValidate_eq_ok_iff.mpr ⟨hlen, rfl, hcrc, rfl⟩] at hd
      cases hd
    rw [← and_assoc]
    simp only [hbad, false_and, iff_false]
    split <;> simp_all
  | ok d =>
    obtain ⟨hlen, -, hcrc, rfl⟩ := decodeAndValidate_eq_ok_iff.mp hd
    rw [and_iff_right hlen, and_iff_right hcrc]
    cases hc : commandOfCode p.cmdCode (frameOf f).command with
    | none => simp [hc]
    | some c => cases hp : decodePayload p c (frameOf f).payload <;> simp [hc, hp, -Prod.exists]

theorem commandOfCode_eq_some {k : CmdCodes} {b : Byte} {c : Command} (h : commandOfCode k b = some c) :
    k.code c = b := by
  simpa using List.find?_some h

/-- `CMD_CODE` is one to one (R5), so the byte of a command selects it (R58). -/
theorem commandOfCode_code {p : Params} (hp : p.Valid) (c : Command) :
    commandOfCode p.cmdCode (p.cmdCode.code c) = some c := by
  obtain ⟨-, hnodup, -⟩ := hp
  have hall (d : Command) : d ∈ Command.all := by cases d <;> decide
  obtain ⟨d, hd⟩ : ∃ d, commandOfCode p.cmdCode (p.cmdCode.code c) = some d :=
    Option.isSome_iff_exists.mp (List.find?_isSome.mpr ⟨c, hall c, by simp⟩)
  rw [hd, List.inj_on_of_nodup_map hnodup (hall d) (hall c) (commandOfCode_eq_some hd)]

/-! ### The payload formats (R54) -/

theorem emptyRequest_eq_ok_iff {i : Instr} {payload : List Byte} {iv : Instr × List (Byte × Pattern)} :
    emptyRequest i payload = .ok iv ↔ payload = [] ∧ (i, []) = iv := by
  cases payload <;> simp [emptyRequest]

theorem pairRequest_eq_ok_iff {p : Params} {mk : List Byte → Instr} {payload : List Byte}
    {iv : Instr × List (Byte × Pattern)} :
    pairRequest p mk payload = .ok iv ↔ ∃ ps, parsePairs p payload = .ok ps ∧ (mk (ps.map Prod.fst), ps) = iv := by
  unfold pairRequest
  split
  · next ps h => simp [h]
  · next h => simp [h]

theorem instr_of_syncRequest {p : Params} {payload : List Byte} {iv : Instr × List (Byte × Pattern)}
    (h : syncRequest p payload = .ok iv) : ∃ i ts, iv.1 = .syncWrite i ts := by
  unfold syncRequest at h
  split at h
  · cases h
  · split at h
    · cases h
    · split at h
      · cases h
        exact ⟨_, _, rfl⟩
      · cases h

/-- A WRITE's payload is a PAIR_LIST, but for UPDATE_ID's (R97, log 14). -/
theorem decodePayload_write {p : Params} {payload : List Byte} (h : ∀ new, payload ≠ [1#8, new]) :
    decodePayload p .write payload = pairRequest p .write payload := by
  match payload with
  | [i, new] => exact if_neg fun hi => h new (by rw [hi])
  | [] | [_] | _ :: _ :: _ :: _ => rfl

/-- The operands read from a payload are those of the command selected (R58). -/
theorem commandOf_decodePayload {p : Params} {c : Command} {payload : List Byte} {iv : Instr × List (Byte × Pattern)}
    (h : decodePayload p c payload = .ok iv) : commandOf iv.1 = c := by
  cases c with
  | write =>
    by_cases hid : ∃ new, payload = [1#8, new]
    · obtain ⟨new, rfl⟩ := hid
      cases h
      rfl
    · rw [decodePayload_write fun new e => hid ⟨new, e⟩] at h
      obtain ⟨ps, -, rfl⟩ := pairRequest_eq_ok_iff.mp h
      rfl
  | writeAck =>
    obtain ⟨ps, -, rfl⟩ := pairRequest_eq_ok_iff.mp h
    rfl
  | syncWrite =>
    obtain ⟨i, ts, hi⟩ := instr_of_syncRequest h
    rw [hi]
    rfl
  | read | syncRead | bulkWrite | bulkRead =>
    cases h
    rfl
  | ping | eepromWrite | reboot | hardReset | enterBootloader | scanSensors | resetEncoder | eepromWriteAck =>
    obtain ⟨-, rfl⟩ := emptyRequest_eq_ok_iff.mp h
    rfl

theorem byteFour_of_decodeRequest {p : Params} {f : List Byte} {r : Request} (h : decodeRequest p f = .ok r) :
    f[4]? = some (p.cmdCode.code (commandOf r.instr)) := by
  obtain ⟨hlen, -, c, iv, hc, hiv, rfl⟩ := decodeRequest_eq_ok_iff.mp h
  have hfour : f[4]? = some (frameOf f).command := by
    simp [frameOf, List.getElem?_eq_getElem (show 4 < f.length by omega)]
  rw [hfour, commandOf_decodePayload hiv, commandOfCode_eq_some hc]

theorem decode_eq_ok_iff {p : Params} {f : List Byte} {i : Instr} :
    decode p f = .ok i ↔ ∃ r, decodeRequest p f = .ok r ∧ r.instr = i := by
  unfold decode
  cases decodeRequest p f <;> simp

/-- Settles O12: the command found has the byte it was looked up by, and every payload format keeps the command. -/
theorem requestDecoderSelectsByByteFour : Obligations.RequestDecoderSelectsByByteFour := by
  refine fun p f => ⟨fun r h => byteFour_of_decodeRequest h, fun hnone i h => ?_⟩
  obtain ⟨r, hr, -⟩ := decode_eq_ok_iff.mp h
  exact hnone _ (byteFour_of_decodeRequest hr)

/-- Settles O13: the decoder run on each frame. -/
theorem specFramesDecode : Obligations.SpecFramesDecode :=
  ⟨by decide, by decide, by decide, by decide, by decide⟩

/-! ## The encoder's payloads -/

theorem pairsOf_cons (p : Params) {t : Table} {i : Byte} {v : Pattern} (hv : readReg t i = some v) (r : List Byte) :
    pairsOf p t (i :: r) = i :: (le (regWidth p i) v.toNat ++ pairsOf p t r) := by
  simp [pairsOf, regNat, hv]

/-- PAIR_LIST exists exactly when every register listed has a value (R91). -/
theorem pairList_eq_some_iff {p : Params} {t : Table} {is payload : List Byte} :
    pairList p t is = some payload ↔ (∀ i ∈ is, (readReg t i).isSome = true) ∧ pairsOf p t is = payload := by
  induction is generalizing payload with
  | nil => simp [pairList, pairsOf]
  | cons i r ih =>
    rw [pairList]
    cases hv : readReg t i with
    | none => simp [hv]
    | some v =>
      cases hr : pairList p t r with
      | none =>
        have hmissing : ¬ ∀ j ∈ r, (readReg t j).isSome = true := fun h => by
          rw [ih.mpr ⟨h, rfl⟩] at hr
          cases hr
        simp only [List.forall_mem_cons, hmissing, and_false, false_and, reduceCtorEq]
      | some rest =>
        obtain ⟨hall, rfl⟩ := ih.mp hr
        rw [pairsOf_cons p hv, List.forall_mem_cons, hv, Option.some.injEq]
        exact ⟨fun h => ⟨⟨rfl, hall⟩, h⟩, fun h => h.2⟩

theorem syncList_eq (p : Params) (i : Byte) (ts : List (Byte × Pattern)) : syncList p i ts = syncOf p i ts := rfl

theorem encWidth_pos (e : Enc) : 0 < encWidth e := by cases e <;> decide

theorem regEnc_of_lt {p : Params} {i : Byte} (h : i.toNat < p.regCount) :
    ∃ e, regEnc p i = some e ∧ regWidth p i = encWidth e := by
  obtain ⟨e, he⟩ := Option.isSome_iff_exists.mp ((regEnc_isSome_iff p i).mpr h)
  exact ⟨e, he, regWidth_of_regEnc he⟩

theorem regWidth_pos {p : Params} {i : Byte} (h : i.toNat < p.regCount) : 0 < regWidth p i := by
  obtain ⟨e, -, hw⟩ := regEnc_of_lt h
  exact hw ▸ encWidth_pos e

theorem length_le_pairsLen (p : Params) (is : List Byte) : is.length ≤ pairsLen p is := by
  simp [pairsLen, List.sum_map_add]

/-- The encoder lays out the frame of R45 (R80). -/
theorem layout_eq {p : Params} {t : Table} (ht : TableOk p t) (c : Command) (payload : List Byte) :
    layout p t c payload = some (frameFor p t c payload) := by
  obtain ⟨-, -, -, -, hid, hstatus⟩ := ht
  obtain ⟨id, hid⟩ := Option.isSome_iff_exists.mp hid
  obtain ⟨status, hstatus⟩ := Option.isSome_iff_exists.mp hstatus
  simp only [layout, hid, hstatus, frameFor, regByte, regNat]
  rfl

theorem tableOk_tableFor {p : Params} {t : Table} (hp : p.Valid) (ht : TableOk p t) (i : Instr) :
    TableOk p (tableFor p t i) := by
  cases i with
  | syncWrite => exact tableOk_freshTable hp broadcastId
  | _ => exact ht

/-- The encoder's frame: that of R45 around the payload of the command's format (R54, R57). -/
theorem encode_eq_some_iff {p : Params} {t : Table} {i : Instr} {f : List Byte} (hp : p.Valid) (ht : TableOk p t) :
    encode p t i = some f ↔
      WellFormed p i = true ∧ ∃ payload, payloadOf p t i = some payload ∧
        frameFor p (tableFor p t i) (commandOf i) payload = f := by
  unfold encode
  by_cases hwf : WellFormed p i = true
  · rw [if_pos hwf, and_iff_right hwf]
    cases payloadOf p t i with
    | none => simp
    | some payload => simp [layout_eq (tableOk_tableFor hp ht i)]
  · simp [hwf]

/-! ## Reading the payloads back -/

/-- The first pair of a payload (R99). -/
theorem parsePairsAt_cons {p : Params} {i : Byte} {v : Pattern} (hi : i.toNat < p.regCount)
    (hv : v.width = 8 * regWidth p i) (fuel k : Nat) (rest : List Byte) :
    parsePairsAt p (fuel + 1) k (i :: (le (regWidth p i) v.toNat ++ rest)) =
      (parsePairsAt p fuel (k + 1 + regWidth p i) rest).map ((i, v) :: ·) := by
  obtain ⟨e, he, hw⟩ := regEnc_of_lt hi
  rw [hw] at hv ⊢
  have hlen := le_length (encWidth e) v.toNat
  have htake : (le (encWidth e) v.toNat ++ rest).take (encWidth e) = le (encWidth e) v.toNat := List.take_left' hlen
  have hdrop : (le (encWidth e) v.toNat ++ rest).drop (encWidth e) = rest := List.drop_left' hlen
  have hlong : ¬ (le (encWidth e) v.toNat ++ rest).length < encWidth e := by simp
  simp only [parsePairsAt, he, if_neg hlong, htake, hdrop, fromLe_le _ v hv]
  cases parsePairsAt p fuel (k + 1 + encWidth e) rest <;> rfl

/-- A PAIR_LIST splits into the pairs it was made of (R54, R99). -/
theorem parsePairsAt_pairsOf {p : Params} {t : Table} (ht : TableOk p t) {is : List Byte}
    (hs : ∀ i ∈ is, (readReg t i).isSome = true) {fuel : Nat} (hf : is.length ≤ fuel) (k : Nat) :
    parsePairsAt p fuel k (pairsOf p t is) = .ok (sentValues t (.write is)) := by
  induction is generalizing fuel k with
  | nil => cases fuel <;> rfl
  | cons i r ih =>
    obtain ⟨hi, hr⟩ := List.forall_mem_cons.mp hs
    obtain ⟨v, hv⟩ := Option.isSome_iff_exists.mp hi
    obtain ⟨fuel, rfl⟩ := Nat.exists_eq_add_one_of_ne_zero (Nat.ne_zero_of_lt hf)
    have hwidth : v.width = 8 * regWidth p i := by
      obtain ⟨-, hwidths, -⟩ := ht
      exact hwidths i v hv
    rw [pairsOf_cons p hv, parsePairsAt_cons (ordinal_lt_of_read ht hv) hwidth, ih hr (Nat.le_of_succ_le_succ hf)]
    simp [sentValues, hv, Except.map]

theorem parsePairs_pairsOf {p : Params} {t : Table} (ht : TableOk p t) {is : List Byte}
    (hs : ∀ i ∈ is, (readReg t i).isSome = true) : parsePairs p (pairsOf p t is) = .ok (sentValues t (.write is)) :=
  parsePairsAt_pairsOf ht hs (pairsOf_length p t is ▸ length_le_pairsLen p is) 0

/-- The ordinals of the pairs sent are those listed. -/
theorem sentValues_ordinals {t : Table} {is : List Byte} (hs : ∀ i ∈ is, (readReg t i).isSome = true) :
    (sentValues t (.write is)).map Prod.fst = is := by
  induction is with
  | nil => rfl
  | cons i r ih =>
    obtain ⟨hi, hr⟩ := List.forall_mem_cons.mp hs
    obtain ⟨v, hv⟩ := Option.isSome_iff_exists.mp hi
    simpa [sentValues, hv] using ih hr

theorem pairRequest_pairsOf {p : Params} {t : Table} (ht : TableOk p t) {is : List Byte}
    (hs : ∀ i ∈ is, (readReg t i).isSome = true) (mk : List Byte → Instr) :
    pairRequest p mk (pairsOf p t is) = .ok (mk is, sentValues t (.write is)) :=
  pairRequest_eq_ok_iff.mpr ⟨_, parsePairs_pairsOf ht hs, by rw [sentValues_ordinals hs]⟩

/-- Only a WRITE of ordinal 1 alone has the payload of an UPDATE_ID (R97). -/
theorem eq_of_pairsOf_eq {p : Params} {t : Table} {is : List Byte} {new : Byte}
    (hd : ∀ i ∈ is, i.toNat < p.regCount) (h : pairsOf p t is = [1#8, new]) : is = [1#8] := by
  have hlen : pairsLen p is = 2 := by rw [← pairsOf_length p t is, h]; rfl
  match is with
  | [] => cases h
  | [i] => rw [(List.cons.inj h).1]
  | i :: j :: r =>
    have hi := regWidth_pos (hd i (by simp))
    have hj := regWidth_pos (hd j (by simp))
    simp only [pairsLen, List.map_cons, List.sum_cons] at hlen
    omega

/-- A SYNC_LIST's targets split into the targets they were made of (R54). -/
theorem splitTargets_flatMap {n : Nat} {ts : List (Byte × Pattern)} (hw : ∀ dv ∈ ts, dv.2.width = 8 * n) {fuel : Nat}
    (hf : ts.length ≤ fuel) :
    splitTargets n fuel (ts.flatMap fun dv => dv.1 :: le n dv.2.toNat) = some ts := by
  induction ts generalizing fuel with
  | nil => cases fuel <;> rfl
  | cons x r ih =>
    obtain ⟨hx, hr⟩ := List.forall_mem_cons.mp hw
    obtain ⟨fuel, rfl⟩ := Nat.exists_eq_add_one_of_ne_zero (Nat.ne_zero_of_lt hf)
    have hlen := le_length n x.2.toNat
    simp [splitTargets, List.take_left' hlen, List.drop_left' hlen, fromLe_le n x.2 hx, ih hr (Nat.le_of_succ_le_succ hf)]

theorem syncRequest_syncOf {p : Params} {i : Byte} {ts : List (Byte × Pattern)} (hi : i.toNat < p.regCount)
    (hw : ∀ dv ∈ ts, dv.2.width = 8 * regWidth p i) : syncRequest p (syncOf p i ts) = .ok (.syncWrite i ts, []) := by
  obtain ⟨e, he, hwidth⟩ := regEnc_of_lt hi
  have hfuel : ts.length ≤ (ts.flatMap fun dv => dv.1 :: le (regWidth p i) dv.2.toNat).length := by
    have hlen := syncOf_length p i ts
    rw [syncOf, List.length_cons, Nat.mul_add] at hlen
    omega
  have hsplit := splitTargets_flatMap hw hfuel
  simp only [syncRequest, syncOf, he]
  rw [← hwidth, hsplit]

/-! ## The well-formed commands, by the checks of the rules (R90, R140) -/

theorem ordinalWritable_iff {p : Params} {i : Byte} : ordinalWritable p i = true ↔ writeProblem p i = none := by
  simp only [ordinalWritable, ordinalDefined, Bool.and_eq_true, regEnc_isSome_iff, Bool.not_eq_true', writeProblem]
  split
  · next hundef => exact iff_of_false (fun h => Nat.not_lt.mpr hundef h.1) (by simp)
  · split
    · next hfixed => simp [isFixed_iff.mpr hfixed]
    · next hdef hfixed => simpa [Bool.eq_false_iff, isFixed_iff] using ⟨Nat.lt_of_not_le hdef, not_or.mp hfixed⟩

theorem ordinalDefined_iff {p : Params} {i : Byte} : ordinalDefined p i = true ↔ readProblem p i = none := by
  simp [ordinalDefined, regEnc_isSome_iff, readProblem]

theorem targetOk_iff {p : Params} {i : Byte} {dv : Byte × Pattern} :
    targetOk p i dv = true ↔ targetProblem p i dv = none := by
  unfold targetProblem targetOk
  split
  · simp_all
  · split <;> simp_all

theorem lt_regCount_of_writeProblem {p : Params} {i : Byte} (h : writeProblem p i = none) : i.toNat < p.regCount := by
  unfold writeProblem at h
  split at h
  · cases h
  · omega

theorem width_of_targetProblem {p : Params} {i : Byte} {dv : Byte × Pattern} (h : targetProblem p i dv = none) :
    dv.2.width = 8 * regWidth p i := by
  unfold targetProblem at h
  split at h
  · cases h
  · simpa using h

theorem wellFormed_write_iff {p : Params} {is : List Byte} :
    WellFormed p (.write is) = true ↔
      is.isEmpty = false ∧ (∀ i ∈ is, writeProblem p i = none) ∧ 10 + pairsLen p is ≤ 255 := by
  simp [WellFormed, ordinalWritable_iff, and_assoc, pairsLen, pairBytes]

theorem wellFormed_writeAck (p : Params) (is : List Byte) : WellFormed p (.writeAck is) = WellFormed p (.write is) := rfl

theorem wellFormed_read_iff {p : Params} {is : List Byte} :
    WellFormed p (.read is) = true ↔
      is.isEmpty = false ∧ (∀ i ∈ is, readProblem p i = none) ∧ 10 + pairsLen p is ≤ 255 := by
  simp [WellFormed, ordinalDefined_iff, and_assoc, pairsLen, pairBytes]

theorem wellFormed_syncWrite_iff {p : Params} {i : Byte} {ts : List (Byte × Pattern)} :
    WellFormed p (.syncWrite i ts) = true ↔
      writeProblem p i = none ∧ ts.isEmpty = false ∧ (∀ dv ∈ ts, targetProblem p i dv = none) ∧
        10 + (syncOf p i ts).length ≤ 255 := by
  simp [WellFormed, ordinalWritable_iff, targetOk_iff, and_assoc, syncOf_length, ← Nat.add_assoc]

/-! ## The encoder's frames read back -/

/-- The payload of a well-formed command reads back as the command and the values it carries, but for the WRITE of ordinal
1 alone (R54, R58, R97). -/
theorem decodePayload_payloadOf {p : Params} {t : Table} (ht : TableOk p t) {i : Instr} (hwf : WellFormed p i = true)
    (hne : i ≠ .write [1#8]) {payload : List Byte} (h : payloadOf p t i = some payload) :
    decodePayload p (commandOf i) payload = .ok (i, sentValues t i) := by
  cases i with
  | write is =>
    obtain ⟨hs, rfl⟩ := pairList_eq_some_iff.mp h
    obtain ⟨-, hw, -⟩ := wellFormed_write_iff.mp hwf
    have hnotId : ∀ new, pairsOf p t is ≠ [1#8, new] := fun new e =>
      hne (congrArg _ (eq_of_pairsOf_eq (fun i hi => lt_regCount_of_writeProblem (hw i hi)) e))
    exact (decodePayload_write hnotId).trans (pairRequest_pairsOf ht hs .write)
  | writeAck is =>
    obtain ⟨hs, rfl⟩ := pairList_eq_some_iff.mp h
    exact pairRequest_pairsOf ht hs .writeAck
  | syncWrite i ts =>
    cases h
    obtain ⟨hi, -, hts, -⟩ := wellFormed_syncWrite_iff.mp hwf
    exact syncRequest_syncOf (lt_regCount_of_writeProblem hi) fun dv hdv => width_of_targetProblem (hts dv hdv)
  | syncRead | bulkWrite | bulkRead => cases h
  | _ =>
    cases h
    rfl

/-- Settles O9: the frame of R45 passes the decoder's checks, its byte 4 selects the command because `CMD_CODE` is one to
one, and its payload reads back. -/
theorem encodedRequestDecodes : Obligations.EncodedRequestDecodes := by
  intro p t i f hp ht h hne
  obtain ⟨hwf, payload, hpayload, rfl⟩ := (encode_eq_some_iff hp ht).mp h
  rw [decodeRequest_eq_ok_iff, frameOf_frameFor, frameFor_length]
  exact ⟨Nat.le_add_right 10 _, crcMatches_frameFor .., commandOf i, (i, sentValues t i),
    commandOfCode_code hp (commandOf i), decodePayload_payloadOf ht hwf hne hpayload, rfl⟩

/-! ## The block's builds -/

theorem bind_eq_ok_iff {ε α β : Type} {x : Except ε α} {g : α → Except ε β} {b : β} :
    (x >>= g) = .ok b ↔ ∃ a, x = .ok a ∧ g a = .ok b := by
  cases x <;> simp [bind, Except.bind]

/-- A check in front of the rest of a build. -/
theorem check_bind_eq_ok_iff {ε β : Type} {x : Except ε Unit} {y : Except ε β} {b : β} :
    (x >>= fun _ => y) = .ok b ↔ x = .ok () ∧ y = .ok b := by
  cases x <;> simp [bind, Except.bind]

/-- The end every build has: ENCODE, then the prediction beside the frame (R92). -/
theorem exists_encodeFrame_bind_iff {p : Params} {t : Table} (ht : TableOk p t) {c : Command} {payload f : List Byte}
    {a : Option AckPrediction} :
    (∃ b, (encodeFrame p t c payload >>= fun g => pure (g, a)) = Except.ok (f, b)) ↔
      10 + payload.length ≤ 255 ∧ frameFor p t c payload = f := by
  simp [bind_eq_ok_iff, encodeFrame_eq_ok_iff ht, pure, Except.pure]

theorem requireUnicast_eq_ok_iff {p : Params} {t : Table} (ht : TableOk p t) :
    requireUnicast t = .ok () ↔ regByte t 1#8 ≠ 255#8 := by
  rw [requireUnicast_eq ht]
  split <;> simp_all

theorem requireNonempty_eq_ok_iff {α : Type} {l : List α} : requireNonempty l = .ok () ↔ l.isEmpty = false := by
  rw [requireNonempty_eq]
  split <;> simp_all

theorem checkDeviceId_eq_ok_iff {id : Byte} : checkDeviceId id = .ok () ↔ id ≠ 255#8 := by
  rw [checkDeviceId_eq]
  split <;> simp_all

/-- A sequence of checks passes when no element fails its own (R140). -/
theorem firstProblem_eq_ok_iff {α : Type} {problem : α → Option Failure} {l : List α} {r : Except Failure Unit}
    (hr : r = match l.findSome? problem with
      | some f => .error f
      | none => .ok ()) : r = .ok () ↔ ∀ x ∈ l, problem x = none := by
  rw [← List.findSome?_eq_none_iff, hr]
  cases l.findSome? problem <;> simp

theorem checkWritables_eq_ok_iff {p : Params} {is : List Byte} :
    checkWritables p is = .ok () ↔ ∀ i ∈ is, writeProblem p i = none :=
  firstProblem_eq_ok_iff (checkWritables_eq p is)

theorem checkIndices_eq_ok_iff {p : Params} {is : List Byte} :
    checkIndices p is = .ok () ↔ ∀ i ∈ is, readProblem p i = none :=
  firstProblem_eq_ok_iff (checkIndices_eq p is)

theorem checkTargets_eq_ok_iff {p : Params} {i : Byte} {ts : List (Byte × Pattern)} :
    checkTargets p i ts = .ok () ↔ ∀ dv ∈ ts, targetProblem p i dv = none :=
  firstProblem_eq_ok_iff (checkTargets_eq p i ts)

theorem checkIndex_and_requireWritable_iff {p : Params} {i : Byte} :
    checkIndex p i = .ok () ∧ requireWritable i = .ok () ↔ writeProblem p i = none := by
  rw [checkIndex_eq, requireWritable_eq, writeProblem]
  split
  · simp
  · split <;> simp

theorem pairsFromT_eq_ok_iff {p : Params} {t : Table} {is payload : List Byte} :
    pairsFromT p t is = .ok payload ↔ pairList p t is = some payload := by
  rw [pairsFromT_eq, pairList_eq_some_iff]
  cases h : is.find? (fun i => (readReg t i).isNone) with
  | none =>
    have hall : ∀ i ∈ is, (readReg t i).isSome = true := by simpa [Option.isSome_iff_ne_none] using h
    rw [Except.ok.injEq, and_iff_right hall]
  | some i =>
    have hmem := List.mem_of_find?_eq_some h
    have hnone : readReg t i = none := by simpa using List.find?_some h
    simp only [reduceCtorEq, false_iff]
    rintro ⟨hall, -⟩
    simpa [hnone] using hall i hmem

/-- What WRITE and WRITE_ACK share (R93, R94). -/
theorem writePayload_eq_ok_iff {p : Params} {t : Table} (ht : TableOk p t) {is payload : List Byte} :
    writePayload p t is = .ok payload ↔
      regByte t 1#8 ≠ 255#8 ∧ is.isEmpty = false ∧ (∀ i ∈ is, writeProblem p i = none) ∧
        pairList p t is = some payload := by
  simp only [writePayload, check_bind_eq_ok_iff, requireUnicast_eq_ok_iff ht, requireNonempty_eq_ok_iff,
    checkWritables_eq_ok_iff, pairsFromT_eq_ok_iff]

theorem length_of_pairList {p : Params} {t : Table} {is payload : List Byte} (h : pairList p t is = some payload) :
    payload.length = pairsLen p is := by
  obtain ⟨-, rfl⟩ := pairList_eq_some_iff.mp h
  exact pairsOf_length p t is

/-- The build of a WRITE or WRITE_ACK gives the frame of its command byte and PAIR_LIST, of a well-formed list (R93, R94). -/
theorem exists_writePayload_bind_iff {p : Params} {t : Table} (ht : TableOk p t) {is f : List Byte} {c : Command}
    {a : Option AckPrediction} :
    (∃ b, (writePayload p t is >>= fun payload => encodeFrame p t c payload >>= fun g => pure (g, a)) =
        Except.ok (f, b)) ↔
      (WellFormed p (.write is) = true ∧ ∃ payload, pairList p t is = some payload ∧ frameFor p t c payload = f) ∧
        regByte t 1#8 ≠ 255#8 := by
  simp only [bind_eq_ok_iff (x := writePayload p t is), writePayload_eq_ok_iff ht, wellFormed_write_iff]
  constructor
  · rintro ⟨b, payload, ⟨hid, hne, hw, hpayload⟩, hb⟩
    obtain ⟨hfits, hf⟩ := (exists_encodeFrame_bind_iff ht).mp ⟨b, hb⟩
    rw [length_of_pairList hpayload] at hfits
    exact ⟨⟨⟨hne, hw, hfits⟩, payload, hpayload, hf⟩, hid⟩
  · rintro ⟨⟨⟨hne, hw, hfits⟩, payload, hpayload, hf⟩, hid⟩
    rw [← length_of_pairList hpayload] at hfits
    obtain ⟨b, hb⟩ := (exists_encodeFrame_bind_iff (a := a) ht).mpr ⟨hfits, hf⟩
    exact ⟨b, payload, ⟨hid, hne, hw, hpayload⟩, hb⟩

theorem exists_buildMaint_iff {p : Params} {t : Table} (ht : TableOk p t) {c : Command} {a : Option AckPrediction}
    {f : List Byte} :
    (∃ b, buildMaint p t c a = .ok (f, b)) ↔ frameFor p t c [] = f ∧ regByte t 1#8 ≠ 255#8 := by
  simp only [buildMaint, check_bind_eq_ok_iff, requireUnicast_eq_ok_iff ht, exists_and_left,
    exists_encodeFrame_bind_iff ht]
  exact ⟨fun ⟨hid, _, hf⟩ => ⟨hf, hid⟩, fun ⟨hf, hid⟩ => ⟨hid, by simp, hf⟩⟩

theorem exists_buildRead_iff {p : Params} {t : Table} (ht : TableOk p t) {is f : List Byte} :
    (∃ b, buildRead p t is = .ok (f, b)) ↔
      (WellFormed p (.read is) = true ∧ frameFor p t .read is = f) ∧ regByte t 1#8 ≠ 255#8 := by
  have hlen := length_le_pairsLen p is
  simp only [buildRead, check_bind_eq_ok_iff, requireUnicast_eq_ok_iff ht, requireNonempty_eq_ok_iff,
    checkIndices_eq_ok_iff, exists_and_left, wellFormed_read_iff, readAckLen_eq, maxFrame]
  by_cases hfits : 10 + pairsLen p is ≤ 255
  · simp only [Nat.not_lt.mpr hfits, if_false, exists_encodeFrame_bind_iff ht]
    have : 10 + is.length ≤ 255 := by omega
    tauto
  · simp [hfits, Nat.lt_of_not_le hfits, invalid]

theorem exists_buildSyncWrite_iff {p : Params} (hp : p.Valid) {i : Byte} {ts : List (Byte × Pattern)} {f : List Byte} :
    (∃ b, buildSyncWrite p i ts = .ok (f, b)) ↔
      WellFormed p (.syncWrite i ts) = true ∧ frameFor p (scratchTable p) .syncWrite (syncOf p i ts) = f := by
  simp only [buildSyncWrite, check_bind_eq_ok_iff, requireNonempty_eq_ok_iff, checkTargets_eq_ok_iff, targetFields_eq,
    exists_and_left, exists_encodeFrame_bind_iff (tableOk_freshTable hp broadcastId), scratchTable,
    wellFormed_syncWrite_iff, ← checkIndex_and_requireWritable_iff, and_assoc]

theorem exists_buildUpdateId_iff {p : Params} {t : Table} (ht : TableOk p t) {new : Byte} {f : List Byte} :
    (∃ b, buildUpdateId p t new = .ok (f, b)) ↔
      (new ≠ 255#8 ∧ frameFor p t .write [1#8, new] = f) ∧ regByte t 1#8 ≠ 255#8 := by
  simp only [buildUpdateId, check_bind_eq_ok_iff, requireUnicast_eq_ok_iff ht, checkDeviceId_eq_ok_iff, exists_and_left,
    exists_encodeFrame_bind_iff ht]
  simp [deviceIdIndex, and_comm, and_assoc]

/-- Settles O11: each build passes its checks exactly when its command is well-formed and, if it goes to one device, the
table holds that device's ID; both then give the frame of R45 around the same payload. -/
theorem encoderGivesTheTransmittedFrame : Obligations.EncoderGivesTheTransmittedFrame := by
  intro p t i f hp ht
  rw [encode_eq_some_iff hp ht]
  cases i with
  | write is => exact (exists_writePayload_bind_iff ht).trans (by simp [isUnicast, payloadOf, tableFor, commandOf])
  | writeAck is =>
    exact (exists_writePayload_bind_iff ht).trans
      (by simp [isUnicast, payloadOf, tableFor, commandOf, wellFormed_writeAck])
  | read is => exact (exists_buildRead_iff ht).trans (by simp [isUnicast, payloadOf, tableFor, commandOf])
  | syncWrite i ts =>
    exact (exists_buildSyncWrite_iff hp).trans (by simp [isUnicast, payloadOf, tableFor, commandOf, syncList_eq])
  | updateId new =>
    exact (exists_buildUpdateId_iff ht).trans (by simp [isUnicast, payloadOf, tableFor, commandOf, WellFormed])
  | syncRead => simp [build, buildSyncRead, WellFormed]
  | bulkWrite => simp [build, buildBulkWrite, WellFormed]
  | bulkRead => simp [build, buildBulkRead, WellFormed]
  | _ => exact (exists_buildMaint_iff ht).trans (by simp [isUnicast, payloadOf, tableFor, commandOf, WellFormed])

end Sys2Proof.Proofs

/-! # The register table's operations (R67-R71)

Each local operation is a row of checks and then one answer; `localOp_check` says once what a check in front of the rest does
to the state, and every operation follows check by check, in the order its rule gives. -/

namespace Sys2Proof.Proofs

open Machine Spec Laws

/-! ## The checks of a local operation -/

/-- A refused operand is an error: it leaves FAULT alone (R130, R131). -/
@[simp] theorem failed_validation (x : Validation) (s : State) :
    failed (.validation x) s = { s with result := .failed (.validation x) } := rfl

/-- A local operation whose first check fails on `c` ends there; otherwise it goes on with the rest (R72). -/
theorem localOp_check {s : State} (hr : Ready s) (op : HostOp) (c : Prop) [Decidable c] (f : Failure)
    (rest : Unit → Except Failure (Table × Data)) :
    localOp op ((if c then .error f else .ok ()) >>= rest) s = if c then failed f s else localOp op (rest ()) s := by
  split
  · exact localOp_of_ready hr op (.error f)
  · rfl

/-- The index check comes first in SET, GET and BYTE_WIDTH (R65). -/
theorem localOp_checkIndex {s : State} (hr : Ready s) (op : HostOp) (i : Byte)
    (rest : Unit → Except Failure (Table × Data)) :
    localOp op (checkIndex s.params i >>= rest) s =
      if s.params.regCount ≤ i.toNat then failed (.validation (.indexOutOfRange i)) s else localOp op (rest ()) s := by
  rw [checkIndex_eq, localOp_check hr]

/-- A local operation whose checks have passed (R72). -/
theorem localOp_pure {s : State} (hr : Ready s) (op : HostOp) (t : Table) (d : Data) :
    localOp op (pure (t, d)) s = { s with table := t, result := .ok d } :=
  localOp_of_ready hr op (.ok (t, d))

/-! ## SET and GET -/

/-- Settles O14: SET is its three checks one after another and then the write. -/
theorem setWritesOneRegister : Obligations.SetWritesOneRegister := by
  intro s i v hr
  rw [execOp, opSet, setResult, localOp_checkIndex hr, requireWritable_eq, localOp_check hr, checkValue_eq,
    localOp_check hr, localOp_pure hr]
  rfl

/-- Settles O16: GET is the index check, then the read. -/
theorem getReadsTheMirror : Obligations.GetReadsTheMirror := by
  intro s i _ hr
  by_cases hi : s.params.regCount ≤ i.toNat
  · rw [execOp, opGet, getResult, localOp_checkIndex hr, if_pos hi, if_pos hi, failed_validation]
  · rw [execOp, opGet_of_ready hr (Nat.lt_of_not_le hi), if_neg hi]
    cases readReg s.table i <;> rfl

/-- The state after a SET that succeeds (R67). -/
def afterSet (i : Byte) (v : Pattern) (s : State) : State :=
  { s with table := writeReg s.table i v, result := .ok .empty }

/-- SET between transactions of a register that may be written, with a value of its width (R67). -/
theorem execOp_set_ok {s : State} (hr : Ready s) {i : Byte} {v : Pattern} (hi : writeProblem s.params i = none)
    (hw : v.width = 8 * regWidth s.params i) : execOp (.set i v) s = .next (afterSet i v s) := by
  obtain ⟨hindex, hfixed⟩ := checkIndex_and_requireWritable_iff.mpr hi
  have hset : setResult s.params s.table i v = pure (writeReg s.table i v, .empty) := by
    rw [setResult, hindex, hfixed, checkValue_eq, if_neg (not_not_intro hw)]
    rfl
  rw [execOp, opSet, hset, localOp_pure hr, afterSet]

/-- What a GET returns depends on the register map and on the one register it reads (R68). -/
theorem result_opGet_congr {s t : State} (hs : Ready s) (ht : Ready t) (hp : t.params = s.params) {j : Byte}
    (hread : readReg t.table j = readReg s.table j) : (opGet j t).result = (opGet j s).result := by
  rw [opGet, opGet, getResult, getResult, localOp_checkIndex ht, localOp_checkIndex hs, hp, hread]
  split
  · rfl
  · cases readReg s.table j with
    | none => rw [localOp_of_ready ht, localOp_of_ready hs]; rfl
    | some v => rw [localOp_pure ht, localOp_pure hs]

theorem execOps_cons {s t : State} {op : HostOp} (h : execOp op s = .next t) (rest : List HostOp) :
    execOps (op :: rest) s = execOps rest t := by
  rw [execOps, h]

/-- Settles O15: the SET leaves the table with the one register written, and a GET reads that table. -/
theorem setThenGetReturnsTheValue : Obligations.SetThenGetReturnsTheValue := by
  intro s i j v hinv hr hi hw
  have hrun (k : Byte) : execOps [.set i v, .get k] s = .next (opGet k (afterSet i v s)) :=
    execOps_cons (execOp_set_ok hr hi hw) [.get k]
  have hlt := lt_regCount_of_writeProblem hi
  have hsame : readReg (afterSet i v s).table i = some v := readReg_writeReg_same v (hinv.table.1 ▸ hlt)
  have hget : opGet i (afterSet i v s) = { afterSet i v s with result := .ok (.value v) } := by
    rw [opGet_of_ready (s := afterSet i v s) hr hlt, hsame]
  refine ⟨_, (hrun i).trans (congrArg _ hget), rfl, rfl, fun u w hj hu hw' => ?_⟩
  cases hu
  cases (hrun j).symm.trans hw'
  exact result_opGet_congr (t := afterSet i v s) hr hr rfl (readReg_writeReg_other v hj)

/-! ## BYTE_WIDTH and ENCODING -/

theorem encWidth_eq (e : Enc) :
    encWidth e = match e with | .u8 | .i8 => 1 | .u16 | .i16 => 2 | .u32 | .i32 | .f32 => 4 := by
  cases e <;> rfl

/-- Settles O17: both answers are read off the register map, by whether it defines the ordinal. -/
theorem byteWidthAndEncodingFromTheMap : Obligations.ByteWidthAndEncodingFromTheMap := by
  intro s i hr
  rw [execOp, opByteWidth, byteWidthResult, localOp_checkIndex hr, localOp_pure hr, execOp, opEncoding, encodingResult,
    localOp_of_ready hr, ← regEnc]
  cases he : regEnc s.params i with
  | none =>
    rw [if_pos ((regEnc_eq_none_iff s.params i).mp he)]
    exact ⟨rfl, rfl⟩
  | some e =>
    have hlt : i.toNat < s.params.regCount := (regEnc_isSome_iff s.params i).mp (by rw [he]; rfl)
    rw [if_neg (Nat.not_le.mpr hlt), regWidth_of_regEnc he, encWidth_eq]
    exact ⟨rfl, rfl⟩

/-! ## ATTACH -/

theorem execOp_attach {s : State} (hr : Ready s) (id : Byte) :
    execOp (.attach id) s = .next (
      if id = 255#8 then failed (.validation (.badDeviceId 255#8)) s
      else { s with table := freshTable s.params id, result := .ok .empty }) := by
  rw [execOp, opAttach, attachResult, checkDeviceId_eq, localOp_check hr, localOp_pure hr]

/-- Settles O18: the table ATTACH leaves is the fresh one (R28). -/
theorem attachMakesAFreshTable : Obligations.AttachMakesAFreshTable := by
  intro s id hp hr
  rw [execOp_attach hr]
  refine ⟨fun hid => by rw [if_pos hid, failed_validation], fun hid => ?_⟩
  rw [if_neg hid]
  have hfresh := readReg_freshTable s.params id
  refine ⟨_, rfl, (tableOk_freshTable hp id).1, hfresh 0#8, hfresh 1#8, hfresh 2#8, hfresh 5#8, fun i h0 h1 h2 h5 => ?_⟩
  rw [hfresh, if_neg h0, if_neg h1, if_neg h2, if_neg h5]

end Sys2Proof.Proofs

/-! # The frame codec: the CRC, ENCODE, and the decoder's checks (R78-R88) -/

namespace Sys2Proof.Proofs

open Machine Spec Laws

/-! ## The CRC's register (R78) -/

/-- One bit step, with the top bit written as bit 31 (R78). -/
theorem crcBit_eq_ite_getLsbD (c : Word) :
    crcBit c = if c.getLsbD 31 then (c <<< 1) ^^^ 0x04C11DB7#32 else c <<< 1 := by
  rw [crcBit, BitVec.msb_eq_getLsbD_last]

theorem crcBits_eq_iterate (n : Nat) (c : Word) : crcBits n c = crcBit^[n] c := by
  induction n generalizing c with
  | zero => rfl
  | succ n ih => exact ih (crcBit c)

/-- The register after one byte more. -/
theorem crc32_concat (b : List Byte) (x : Byte) : crc32 (b ++ [x]) = crcByte (crc32 b) x := by
  rw [crc32, crcFrom_append, crcFrom_cons, crcFrom_nil, crc32]

/-- Settles O1: the last byte is one byte step of the register, and a byte step is eight bit steps. -/
theorem crcIsMpeg2Register : Obligations.CrcIsMpeg2Register := by
  refine ⟨rfl, fun b x => ?_⟩
  rw [crc32_concat, crcByte, crcBits_eq_iterate, funext crcBit_eq_ite_getLsbD]

/-! ## One wrong byte (R79) -/

/-- A byte step forgets nothing of the register it starts from. -/
theorem crcByte_left_injective (b : Byte) : Function.Injective (crcByte · b) :=
  fun _ _ h => (BitVec.xor_left_inj _).mp (crcBits_injective 8 h)

/-- A byte step forgets nothing of the byte. -/
theorem crcByte_right_injective (c : Word) : Function.Injective (crcByte c) := by
  intro x y h
  have hshift : x.setWidth 32 <<< 24 = y.setWidth 32 <<< 24 := (BitVec.xor_right_inj _).mp (crcBits_injective 8 h)
  bv_omega

/-- The bytes of a list forget nothing of the register they start from. -/
theorem crcFrom_injective (b : List Byte) : Function.Injective (crcFrom b) := by
  induction b with
  | nil => exact Function.injective_id
  | cons x r ih =>
    intro c d h
    rw [crcFrom_cons, crcFrom_cons] at h
    exact crcByte_left_injective x (ih h)

/-- A list with one byte replaced has the register of the list itself only if the byte is the one it replaces. -/
theorem getElem?_of_crcFrom_set_eq {b : List Byte} {c : Word} {k : Nat} {x : Byte} (hk : k < b.length)
    (h : crcFrom (b.set k x) c = crcFrom b c) : b[k]? = some x := by
  induction b generalizing c k with
  | nil => cases hk
  | cons y r ih =>
    cases k with
    | zero =>
      rw [List.set_cons_zero, crcFrom_cons, crcFrom_cons] at h
      rw [List.getElem?_cons_zero, crcByte_right_injective c (crcFrom_injective r h)]
    | succ k =>
      rw [List.set_cons_succ, crcFrom_cons, crcFrom_cons] at h
      exact ih (Nat.lt_of_succ_lt_succ hk) h

/-- Byte lists of one length with one value are one list (R31). -/
theorem eq_of_leValue_eq {a b : List Byte} (hlen : a.length = b.length) (h : leValue a = leValue b) : a = b := by
  rw [← le_leValue a, hlen, h, le_leValue]

/-- Two lists that differ in at most one byte, and whose last four bytes are each the CRC of the bytes before them, do not
differ there either: before the field by the CRC, in the field by its value. -/
theorem getElem?_of_crcMatches_set {rx : List Byte} {k : Nat} {x : Byte} (hk : k < rx.length) (h : CrcMatches rx)
    (hset : CrcMatches (rx.set k x)) : rx[k]? = some x := by
  rw [CrcMatches, List.length_set] at hset
  by_cases hbody : k < rx.length - 4
  · rw [List.drop_set_of_lt hbody, h, List.take_set] at hset
    have hlt : k < (rx.take (rx.length - 4)).length := by rwa [List.length_take_of_le (Nat.sub_le _ _)]
    rw [← List.getElem?_take_of_lt hbody]
    exact getElem?_of_crcFrom_set_eq hlt (BitVec.eq_of_toNat_eq hset.symm)
  · have hfield : rx.length - 4 ≤ k := Nat.le_of_not_lt hbody
    rw [List.take_set_of_le hfield, ← h, List.drop_set, if_neg hbody] at hset
    have hsame := eq_of_leValue_eq List.length_set hset
    have hget : (rx.drop (rx.length - 4))[k - (rx.length - 4)]? = some x := by
      rw [← hsame]
      exact List.getElem?_set_self (by rw [List.length_drop]; omega)
    rwa [List.getElem?_drop, Nat.add_sub_cancel' hfield] at hget

/-! ## ENCODE -/

/-- Settles O3: ENCODE's one condition on a register table is the frame's length. -/
theorem encodeRefusesOnlyLongFrames : Obligations.EncodeRefusesOnlyLongFrames :=
  fun _ _ _ _ ht => ⟨fun hfits => ⟨_, (encodeFrame_eq_ok_iff ht).mpr ⟨hfits, rfl⟩⟩, encodeFrame_tooLong⟩

/-! ## The decoder -/

theorem decodeAndValidate_eq_lengthMismatch_iff {rx : List Byte} {n : Nat} :
    decodeAndValidate rx n = .error (.lengthMismatch rx.length n) ↔ n < 10 ∨ rx.length ≠ n := by
  rw [decodeAndValidate_eq]
  split
  · next hlen => exact iff_of_true rfl hlen
  · next hlen =>
    refine iff_of_false ?_ hlen
    split <;> nofun

theorem decodeAndValidate_eq_checksumMismatch_iff {rx : List Byte} {n : Nat} :
    decodeAndValidate rx n = .error .checksumMismatch ↔ 10 ≤ n ∧ rx.length = n ∧ ¬ CrcMatches rx := by
  rw [decodeAndValidate_eq]
  split
  · next hlen => exact iff_of_false nofun (by omega)
  · next hlen =>
    push Not at hlen
    rw [and_iff_right hlen.1, and_iff_right hlen.2]
    split
    · next hcrc => exact iff_of_true rfl hcrc
    · next hcrc => exact iff_of_false nofun hcrc

/-- Settles O8: the decoder's two checks in their order, one outcome each. -/
theorem decoderMakesExactlyTwoChecks : Obligations.DecoderMakesExactlyTwoChecks := by
  refine fun rx n => ⟨decodeAndValidate_eq_lengthMismatch_iff, decodeAndValidate_eq_checksumMismatch_iff, fun d => ?_⟩
  rw [eq_comm (a := d)]
  exact decodeAndValidate_eq_ok_iff

/-- Settles O4: an encoded frame has the predicted length and its own CRC, and its fields stand where the decoder reads
them. -/
theorem frameDecodesToItsFields : Obligations.FrameDecodesToItsFields := by
  intro p t c payload f ht h
  obtain ⟨-, rfl⟩ := (encodeFrame_eq_ok_iff ht).mp h
  exact decodeAndValidate_eq_ok_iff.mpr ⟨Nat.le_add_right _ _, frameFor_length p t c payload,
    crcMatches_frameFor p t c payload, frameOf_frameFor p t c payload⟩

/-- Settles O5: the length is as before, and the CRC can match only if the byte is the one it replaces. -/
theorem oneWrongByteIsDetected : Obligations.OneWrongByteIsDetected := by
  intro rx n k d x h hk hx
  obtain ⟨hn, hlen, hcrc, -⟩ := decodeAndValidate_eq_ok_iff.mp h
  exact decodeAndValidate_eq_checksumMismatch_iff.mpr
    ⟨hn, List.length_set.trans hlen, fun hset => hx (getElem?_of_crcMatches_set hk hcrc hset)⟩

end Sys2Proof.Proofs


/-! # The data commands (R93-R105)

A command's build is a row of checks in front of ENCODE, and each check that fails ends the transaction with no byte
sent: `transact_check` and `transact_checks` say this once, and every data command follows check by check, in the order of
its rule. The split of a READ acknowledgment is then described once, `parsePairsAt_cases`, and the host's calls follow from
what SET, GET and READ leave in the table. -/

namespace Sys2Proof.Proofs

open Machine Spec Laws

/-! ## The checks in front of a command's frame -/

/-- A check that fails on `c` ends the transaction there; otherwise the build goes on (R140). -/
theorem transact_check {s : State} (hr : Ready s) (i : Instr) (c : Prop) [Decidable c] (f : Failure)
    (rest : Unit → Except Failure Built) :
    transact i ((if c then .error f else .ok ()) >>= rest) s = if c then rejected f s else transact i (rest ()) s := by
  split
  · exact transact_of_ready hr i (.error f)
  · rfl

/-- A check of each element of a list ends the transaction with the first one's failure (R140). -/
theorem transact_checks {s : State} (hr : Ready s) (i : Instr) {α : Type} {problem : α → Option Failure} {l : List α}
    {r : Except Failure Unit}
    (h : r = match l.findSome? problem with
      | some f => .error f
      | none => .ok ()) (rest : Unit → Except Failure Built) :
    transact i (r >>= rest) s =
      match l.findSome? problem with
      | some f => rejected f s
      | none => transact i (rest ()) s := by
  rw [h]
  cases l.findSome? problem with
  | some f => exact transact_of_ready hr i (.error f)
  | none => rfl

/-- The unicast check comes first in every command to one device (R90). -/
theorem transact_requireUnicast {s : State} (hr : Ready s) (ht : TableOk s.params s.table) (i : Instr)
    (rest : Unit → Except Failure Built) :
    transact i (requireUnicast s.table >>= rest) s =
      if regByte s.table 1#8 = 255#8 then rejected (.validation (.badDeviceId 255#8)) s
      else transact i (rest ()) s := by
  rw [requireUnicast_eq ht, transact_check hr]

theorem transact_requireNonempty {s : State} (hr : Ready s) (i : Instr) {α : Type} [DecidableEq α] (l : List α)
    (rest : Unit → Except Failure Built) :
    transact i (requireNonempty l >>= rest) s =
      if l = [] then rejected (.validation .emptyList) s else transact i (rest ()) s := by
  rw [requireNonempty_eq, transact_check hr]
  simp only [List.isEmpty_iff]

/-- The two checks of an ordinal that is to be written (R65, R90). -/
theorem transact_writable {s : State} (hr : Ready s) (i : Instr) (j : Byte) (rest : Unit → Except Failure Built) :
    transact i (checkIndex s.params j >>= fun _ => requireWritable j >>= rest) s =
      match writeProblem s.params j with
      | some f => rejected f s
      | none => transact i (rest ()) s := by
  rw [checkIndex_eq, transact_check hr, requireWritable_eq, transact_check hr, writeProblem]
  split
  · rfl
  · split <;> rfl

/-- ENCODE comes last (R80): a frame that is too long is not sent (R81). -/
theorem transact_encodeFrame {s : State} (hr : Ready s) (i : Instr) {t : Table} (ht : TableOk s.params t) (c : Command)
    (payload : List Byte) (a : Option AckPrediction) :
    transact i (encodeFrame s.params t c payload >>= fun f => pure (f, a)) s =
      if 255 < 10 + payload.length then rejected (.validation (.frameTooLong (10 + payload.length))) s
      else runBuilt (frameFor s.params t c payload, a) s := by
  rw [encodeFrame_eq ht]
  split
  · exact transact_of_ready hr i (.error _)
  · exact transact_of_ready hr i (.ok _)

/-! ## WRITE and WRITE_ACK -/

/-- The checks WRITE and WRITE_ACK share (R93, R94), in their order, and `send` of PAIR_LIST when all of them pass. -/
def writeChecked (send : List Byte → State) (is : List Byte) (s : State) : State :=
  if regByte s.table 1#8 = 255#8 then rejected (.validation (.badDeviceId 255#8)) s
  else if is = [] then rejected (.validation .emptyList) s
  else
    match is.findSome? (writeProblem s.params) with
    | some f => rejected f s
    | none =>
      match is.find? (fun i => (readReg s.table i).isNone) with
      | some i => rejected (.unwrittenRegister i) s
      | none =>
        if 255 < 10 + pairsLen s.params is then rejected (.validation (.frameTooLong (10 + pairsLen s.params is))) s
        else send (pairsOf s.params s.table is)

/-- The pair serialization ends the transaction at the first register without a value (R91). -/
theorem transact_pairsFromT {s : State} (hr : Ready s) (i : Instr) (is : List Byte)
    (rest : List Byte → Except Failure Built) :
    transact i (pairsFromT s.params s.table is >>= rest) s =
      match is.find? (fun i => (readReg s.table i).isNone) with
      | some j => rejected (.unwrittenRegister j) s
      | none => transact i (rest (pairsOf s.params s.table is)) s := by
  rw [pairsFromT_eq]
  cases is.find? (fun i => (readReg s.table i).isNone) with
  | some j => exact transact_of_ready hr i (.error _)
  | none => rfl

theorem transact_writePayload {s : State} (hr : Ready s) (ht : TableOk s.params s.table) (i : Instr) (is : List Byte)
    (c : Command) (a : Option AckPrediction) :
    transact i (writePayload s.params s.table is >>= fun payload =>
        encodeFrame s.params s.table c payload >>= fun f => pure (f, a)) s =
      writeChecked (fun payload => runBuilt (frameFor s.params s.table c payload, a) s) is s := by
  simp only [writePayload, bind_assoc]
  rw [transact_requireUnicast hr ht, transact_requireNonempty hr, transact_checks hr i (checkWritables_eq s.params is),
    transact_pairsFromT hr, transact_encodeFrame hr i ht, pairsOf_length]
  rfl

/-- Settles O20: WRITE's checks are those of its payload, and nothing is read. -/
theorem writeTransaction : Obligations.WriteTransaction := by
  intro s is ⟨hs, _⟩ hr
  rw [exec, execWrite, buildWrite, transact_writePayload hr hs.table]
  simp only [runBuilt_none]
  rfl

/-- Settles O21: WRITE_ACK's checks are those of its payload, and ten bytes are read. -/
theorem writeAckTransaction : Obligations.WriteAckTransaction := by
  intro s is ⟨hs, _⟩ hr
  rw [exec, execWriteAck, buildWriteAck, transact_writePayload hr hs.table]
  simp only [runBuilt_some _ ⟨envelope, .noData⟩ le_rfl]
  rfl

/-! ## READ, SYNC_WRITE and UPDATE_ID -/

/-- READ checks the length of the acknowledgment it predicts (R95). Its own frame is shorter than that, so ENCODE
refuses none that passes the check. -/
theorem transact_encodeRead {s : State} (hr : Ready s) (ht : TableOk s.params s.table) (is : List Byte) :
    transact (.read is)
        (if maxFrame < readAckLen s.params is then invalid (.frameTooLong (readAckLen s.params is))
        else encodeFrame s.params s.table .read is >>= fun f => pure (f, some ⟨readAckLen s.params is, .readData⟩)) s =
      if 255 < 10 + pairsLen s.params is then
        rejected (.validation (.frameTooLong (10 + pairsLen s.params is))) s
      else endsWith (frameFor s.params s.table .read is) (10 + pairsLen s.params is) applyPairs s := by
  rw [readAckLen_eq]
  split
  · exact transact_of_ready hr _ (.error _)
  · next hlong =>
    have hlen := length_le_pairsLen s.params is
    have hfits : ¬ 255 < 10 + is.length := by
      simp only [maxFrame] at hlong
      omega
    rw [transact_encodeFrame hr _ ht, if_neg hfits, runBuilt_some _ ⟨_, .readData⟩ (Nat.le_add_right 10 _)]

/-- Settles O22: READ's checks one after another, the length of its acknowledgment last. -/
theorem readTransaction : Obligations.ReadTransaction := by
  intro s is hs hr
  rewrite [exec, execRead, buildRead, transact_requireUnicast hr hs.table, transact_requireNonempty hr,
    transact_checks hr _ (checkIndices_eq s.params is), transact_encodeRead hr hs.table]
  rfl

/-- The scratch table of a sync-write is a register table (R29). -/
theorem tableOk_scratchTable {p : Params} (hp : p.Valid) : TableOk p (scratchTable p) :=
  tableOk_freshTable hp broadcastId

/-- The header bytes of a sync-write's frame that stand in the scratch table (R29). -/
theorem regByte_scratchTable (p : Params) :
    regByte (scratchTable p) 1#8 = 255#8 ∧ regByte (scratchTable p) 5#8 = p.statusInit := by
  simp [regByte, regNat, scratchTable, readReg_freshTable]

/-- Settles O23: SYNC_WRITE's checks one after another, and the frame of the scratch table's header (R29). -/
theorem syncWriteTransaction : Obligations.SyncWriteTransaction := by
  intro s i ts hs hr
  have hlen : 10 + (syncOf s.params i ts).length = 11 + ts.length * (1 + regWidth s.params i) := by
    rw [syncOf_length]
    omega
  obtain ⟨hid, hstatus⟩ := regByte_scratchTable s.params
  rw [exec, execSyncWrite, buildSyncWrite, transact_writable hr, transact_requireNonempty hr,
    transact_checks hr _ (checkTargets_eq s.params i ts), targetFields_eq,
    transact_encodeFrame hr _ (tableOk_scratchTable hs.params), runBuilt_none, frameFor, hlen,
    hid, hstatus]
  rfl

/-- Settles O24: UPDATE_ID's two checks, and a frame of twelve bytes, which is never too long. -/
theorem updateIdTransaction : Obligations.UpdateIdTransaction := by
  intro s new hs hr
  rw [exec, execUpdateId, buildUpdateId, transact_requireUnicast hr hs.table, checkDeviceId_eq, transact_check hr,
    transact_encodeFrame hr _ hs.table, runBuilt_none]
  rfl

/-- Settles O49: the build runs on the scratch table (R29) and predicts no acknowledgment, so neither a failed build nor
the transaction of a built frame looks at the table. -/
theorem syncWriteIgnoresTheTable : Obligations.SyncWriteIgnoresTheTable := by
  intro s u i ts
  suffices h : ∃ t : State, ∀ w : Table,
      transact (.syncWrite i ts) (buildSyncWrite s.params i ts) { s with table := w } = { t with table := w } by
    obtain ⟨t, ht⟩ := h
    exact ⟨{ t with table := s.table }, congrArg _ (ht s.table), rfl, congrArg _ (ht u)⟩
  by_cases hf : inFlight s.phase = true
  · exact ⟨failed (.busy (.command (.syncWrite i ts))) s,
      fun w => transact_of_inFlight (s := { s with table := w }) hf _ _⟩
  · have hr : Ready s := ready_of_inFlight_false (Bool.eq_false_iff.mpr hf)
    cases hb : buildSyncWrite s.params i ts with
    | error f => exact ⟨rejected f s, fun w => transact_of_ready (s := { s with table := w }) hr _ (.error f)⟩
    | ok b =>
      obtain ⟨f, a⟩ := b
      obtain rfl : a = none := (predicted_of_build (t := s.table) (i := .syncWrite i ts) hb).eq
      exact ⟨sentOnly f s,
        fun w => (transact_of_ready (s := { s with table := w }) hr _ (.ok (f, none))).trans (runBuilt_none f _)⟩

/-- The frame of a WRITE of ordinal 1 alone carries the device ID of the table, as UPDATE_ID's does (R97). -/
theorem payloadOf_write_deviceId {p : Params} {t : Table} (hp : p.Valid) {payload : List Byte}
    (h : payloadOf p t (.write [1#8]) = some payload) : payload = [1#8, regByte t 1#8] := by
  obtain ⟨-, rfl⟩ := pairList_eq_some_iff.mp h
  have hw : regWidth p 1#8 = 1 := regWidth_header hp (by decide)
  simp [pairsOf, hw, le, regByte]

/-- Settles O10: both commands have the payload `[1, T[1]]`, and UPDATE_ID's frame reads back. -/
theorem writeOfDeviceIdDecodesAsUpdateId : Obligations.WriteOfDeviceIdDecodesAsUpdateId := by
  intro p t f hp ht hid h
  obtain ⟨-, payload, hpayload, hf⟩ := (encode_eq_some_iff hp ht).mp h
  obtain rfl := payloadOf_write_deviceId hp hpayload
  have hupdate : encode p t (.updateId (regByte t 1#8)) = some f :=
    (encode_eq_some_iff hp ht).mpr ⟨by simpa [WellFormed] using hid, _, rfl, hf⟩
  exact ⟨decode_eq_ok_iff.mpr ⟨_, encodedRequestDecodes p t _ f hp ht hupdate nofun, rfl⟩, hupdate⟩

/-! ## The split of a READ acknowledgment's payload -/

/-- The bytes of a sequence of (ordinal, value) pairs (R54, R99). -/
def pairsBytes (p : Params) (ps : List (Byte × Pattern)) : List Byte :=
  ps.flatMap fun iv => iv.1 :: le (regWidth p iv.1) iv.2.toNat

/-- Each pair is a defined ordinal with a value of its register's width (R99). -/
def PairsFit (p : Params) (ps : List (Byte × Pattern)) : Prop :=
  ∀ iv ∈ ps, iv.1.toNat < p.regCount ∧ iv.2.width = 8 * regWidth p iv.1

theorem pairsBytes_cons (p : Params) (i : Byte) (v : Pattern) (ps : List (Byte × Pattern)) :
    pairsBytes p ((i, v) :: ps) = i :: (le (regWidth p i) v.toNat ++ pairsBytes p ps) := rfl

theorem pairsFit_cons {p : Params} {i : Byte} {v : Pattern} {ps : List (Byte × Pattern)} :
    PairsFit p ((i, v) :: ps) ↔ (i.toNat < p.regCount ∧ v.width = 8 * regWidth p i) ∧ PairsFit p ps :=
  List.forall_mem_cons

/-- An index byte that names no register, or whose value runs past the end, ends the split at its offset (R100). -/
theorem parsePairsAt_malformed {p : Params} {i : Byte} {rest : List Byte}
    (h : p.regCount ≤ i.toNat ∨ rest.length < regWidth p i) (fuel k : Nat) :
    parsePairsAt p (fuel + 1) k (i :: rest) = .error (.payloadMalformed k) := by
  rw [parsePairsAt]
  cases he : regEnc p i with
  | none => rfl
  | some e =>
    have hdef : i.toNat < p.regCount := (regEnc_isSome_iff p i).mp (by rw [he]; rfl)
    rw [regWidth_of_regEnc he] at h
    exact if_pos (by omega)

/-- Bytes that hold a value of `n` bytes begin with that value's field (R31, R55). -/
theorem exists_value_of_length_le {n : Nat} {rest : List Byte} (h : n ≤ rest.length) :
    ∃ (v : Pattern) (more : List Byte), v.width = 8 * n ∧ rest = le n v.toNat ++ more := by
  have hlen : (rest.take n).length = n := List.length_take_of_le h
  refine ⟨fromLe (rest.take n), rest.drop n, by rw [fromLe_width, hlen], ?_⟩
  have hfield := le_leValue (rest.take n)
  rw [hlen] at hfield
  rw [fromLe_toNat, hfield, List.take_append_drop]

/-- A payload is a sequence of pairs, and splits into them; or it is one up to an index byte that cannot be read, and
the split reports that byte's offset (R99, R100). -/
theorem parsePairsAt_cases (p : Params) {fuel : Nat} {b : List Byte} (hf : b.length ≤ fuel) (k : Nat) :
    (∃ ps, b = pairsBytes p ps ∧ PairsFit p ps ∧ parsePairsAt p fuel k b = .ok ps) ∨
    (∃ ps i rest, b = pairsBytes p ps ++ i :: rest ∧ PairsFit p ps ∧
      (p.regCount ≤ i.toNat ∨ rest.length < regWidth p i) ∧
      parsePairsAt p fuel k b = .error (.payloadMalformed (k + (pairsBytes p ps).length))) := by
  induction fuel generalizing b k with
  | zero =>
    obtain rfl := List.eq_nil_of_length_eq_zero (Nat.le_zero.mp hf)
    exact .inl ⟨[], rfl, nofun, rfl⟩
  | succ fuel ih =>
    cases b with
    | nil => exact .inl ⟨[], rfl, nofun, rfl⟩
    | cons i rest =>
      by_cases hbad : p.regCount ≤ i.toNat ∨ rest.length < regWidth p i
      · exact .inr ⟨[], i, rest, rfl, nofun, hbad, parsePairsAt_malformed hbad fuel k⟩
      · push Not at hbad
        obtain ⟨hi, hlong⟩ := hbad
        obtain ⟨v, more, hv, rfl⟩ := exists_value_of_length_le hlong
        have hmore : more.length ≤ fuel := by
          simp only [List.length_cons, List.length_append] at hf
          omega
        rw [parsePairsAt_cons hi hv]
        rcases ih hmore (k + 1 + regWidth p i) with ⟨ps, rfl, hps, hok⟩ | ⟨ps, j, r, rfl, hps, hj, herr⟩
        · exact .inl ⟨(i, v) :: ps, rfl, pairsFit_cons.mpr ⟨⟨hi, hv⟩, hps⟩, by rw [hok]; rfl⟩
        · refine .inr ⟨(i, v) :: ps, j, r, ?_, pairsFit_cons.mpr ⟨⟨hi, hv⟩, hps⟩, hj, ?_⟩
          · rw [pairsBytes_cons, List.cons_append, List.append_assoc]
          · rw [herr, pairsBytes_cons, List.length_cons, List.length_append, le_length, Except.map]
            congr 2
            omega

/-- A sequence of pairs splits into its pairs (R99). -/
theorem parsePairsAt_pairsBytes {p : Params} {ps : List (Byte × Pattern)} (h : PairsFit p ps) {fuel : Nat}
    (hf : (pairsBytes p ps).length ≤ fuel) (k : Nat) : parsePairsAt p fuel k (pairsBytes p ps) = .ok ps := by
  induction ps generalizing fuel k with
  | nil => cases fuel <;> rfl
  | cons x r ih =>
    obtain ⟨i, v⟩ := x
    obtain ⟨⟨hi, hv⟩, hr⟩ := pairsFit_cons.mp h
    rw [pairsBytes_cons] at hf ⊢
    obtain ⟨fuel, rfl⟩ := Nat.exists_eq_add_one_of_ne_zero (Nat.ne_zero_of_lt hf)
    have hfr : (pairsBytes p r).length ≤ fuel := by
      simp only [List.length_cons, List.length_append] at hf
      omega
    rw [parsePairsAt_cons hi hv, ih hr hfr]
    rfl

/-- R99: the payloads that split are the sequences of pairs. -/
theorem parsePairs_eq_ok_iff {p : Params} {b : List Byte} {ps : List (Byte × Pattern)} :
    parsePairs p b = .ok ps ↔ b = pairsBytes p ps ∧ PairsFit p ps := by
  constructor
  · intro h
    rw [parsePairs] at h
    rcases parsePairsAt_cases p le_rfl 0 with ⟨qs, hb, hqs, hok⟩ | ⟨qs, i, rest, -, -, -, herr⟩
    · cases hok.symm.trans h
      exact ⟨hb, hqs⟩
    · cases herr.symm.trans h
  · rintro ⟨rfl, hps⟩
    exact parsePairsAt_pairsBytes hps le_rfl 0

/-- Settles O31: a payload that splits is its pairs' bytes, by the cases of the split; and such bytes split, by
induction on the pairs. -/
theorem payloadSplitsIntoPairs : Obligations.PayloadSplitsIntoPairs :=
  fun _ _ _ => parsePairs_eq_ok_iff

/-- Settles O32: the bytes before the index byte that cannot be read are as many as its offset. -/
theorem malformedPayloadOffset : Obligations.MalformedPayloadOffset := by
  intro p b f h
  rw [parsePairs] at h
  rcases parsePairsAt_cases p le_rfl 0 with ⟨ps, -, -, hok⟩ | ⟨ps, i, rest, hb, hps, hi, herr⟩
  · cases hok.symm.trans h
  · have hoffset : b.length - (rest.length + 1) = 0 + (pairsBytes p ps).length := by
      rw [hb, List.length_append, List.length_cons]
      omega
    cases herr.symm.trans h
    exact ⟨ps, i, rest, hb, hps, by rw [hoffset], hi⟩

/-! ## The pairs written into the table -/

theorem written_length (t : Table) (ps : List (Byte × Pattern)) : (written t ps).length = t.length := by
  rw [← writePairs_eq]
  induction ps generalizing t with
  | nil => rfl
  | cons x r ih =>
    obtain ⟨i, v⟩ := x
    rw [writePairs, ih]
    split <;> simp

/-- The last pair is written last; a fixed ordinal's is not written (R98, R101). -/
theorem written_concat (t : Table) (ps : List (Byte × Pattern)) (i : Byte) (v : Pattern) :
    written t (ps ++ [(i, v)]) = if i = 0#8 ∨ i = 2#8 then written t ps else writeReg (written t ps) i v := by
  rw [written, List.foldl_append]
  rfl

/-- A register holds its last pair's value, if it is not fixed and has one (R98, R101, R102). -/
theorem readReg_written {t : Table} {ps : List (Byte × Pattern)} (h : ∀ iv ∈ ps, iv.1.toNat < t.length) (i : Byte) :
    readReg (written t ps) i =
      if i = 0#8 ∨ i = 2#8 then readReg t i
      else
        match ps.reverse.find? (fun iv => iv.1 == i) with
        | some iv => some iv.2
        | none => readReg t i := by
  induction ps using List.reverseRecOn with
  | nil => simp [written]
  | append_singleton ps x ih =>
    obtain ⟨j, v⟩ := x
    rw [List.forall_mem_append, List.forall_mem_singleton] at h
    obtain ⟨hps, hj⟩ := h
    have ih := ih hps
    rw [written_concat, List.reverse_concat, List.find?_cons]
    by_cases hji : j = i
    · subst hji
      by_cases hfixed : j = 0#8 ∨ j = 2#8
      · rw [if_pos hfixed] at ih
        rw [if_pos hfixed, if_pos hfixed, ih]
      · rw [if_neg hfixed, if_neg hfixed, readReg_writeReg_same v (written_length t ps ▸ hj)]
        simp
    · rw [beq_false_of_ne hji, ← ih]
      split
      · rfl
      · exact readReg_writeReg_other v (Ne.symm hji)

/-! ## A READ's ends -/

/-- A READ is refused with no byte sent, or its frame goes out with its prediction; which of the two depends on the
parameters and the table (R95). -/
theorem buildRead_cases {p : Params} {t : Table} (ht : TableOk p t) (is : List Byte) :
    (∃ f, buildRead p t is = .error f) ∨
    (WellFormed p (.read is) = true ∧
      buildRead p t is = .ok (frameFor p t .read is, some ⟨10 + pairsLen p is, .readData⟩)) := by
  cases hb : buildRead p t is with
  | error f => exact .inl ⟨f, rfl⟩
  | ok b =>
    obtain ⟨f, a⟩ := b
    obtain ⟨⟨hwf, rfl⟩, -⟩ := (exists_buildRead_iff ht).mp ⟨a, hb⟩
    obtain rfl : a = _ := (predicted_of_build (i := .read is) hb).eq
    exact .inr ⟨hwf, rfl⟩

theorem exec_read_of_error {s : State} (hr : Ready s) {is : List Byte} {f : Failure}
    (h : buildRead s.params s.table is = .error f) : exec (.read is) s = .next (rejected f s) := by
  rw [exec, execRead, transact_of_ready hr, h]

theorem exec_read_of_ok {s : State} (hr : Ready s) {is frame : List Byte}
    (h : buildRead s.params s.table is = .ok (frame, some ⟨10 + pairsLen s.params is, .readData⟩)) :
    exec (.read is) s = .next (endsWith frame (10 + pairsLen s.params is) applyPairs s) := by
  rw [exec, execRead, transact_of_ready hr, h]
  exact congrArg _ (runBuilt_some frame _ (Nat.le_add_right 10 _) s)

section Ends

variable {frame : List Byte} {n : Nat} {apply : DecodedFrame → State → State} {s : State}

/-- A valid answer is handed to `apply` (R153). -/
theorem endsWith_of_valid (hlen : (answer n s).length = n) (hcrc : CrcMatches (answer n s)) :
    endsWith frame n apply s = apply (frameOf (answer n s)) (afterRead frame n s) := by
  rw [endsWith]
  exact (if_neg (not_not_intro hlen)).trans (if_neg (not_not_intro hcrc))

/-- A transaction that ends Applied got past both checks of the answer (R153). -/
theorem endsWith_of_applied (h : (endsWith frame n apply s).phase = .applied) :
    endsWith frame n apply s = apply (frameOf (answer n s)) (afterRead frame n s) := by
  by_cases hlen : (answer n s).length = n
  · by_cases hcrc : CrcMatches (answer n s)
    · exact endsWith_of_valid hlen hcrc
    · have hend : endsWith frame n apply s = rejected .checksumMismatch (afterRead frame n s) :=
        (if_neg (not_not_intro hlen)).trans (if_pos hcrc)
      rw [hend] at h
      cases h
  · have hend : endsWith frame n apply s = rejected (.lengthMismatch (answer n s).length n) (afterRead frame n s) :=
      if_pos hlen
    rw [hend] at h
    cases h

/-- An applied acknowledgment split into pairs, which are written into the table (R98). -/
theorem applyPairs_of_applied {d : DecodedFrame} (h : (applyPairs d s).phase = .applied) :
    ∃ ps, parsePairs s.params d.payload = .ok ps ∧
      applyPairs d s = { s with table := written s.table ps, result := .ok (.frame d), phase := .applied } := by
  unfold applyPairs at h ⊢
  cases hps : parsePairs s.params d.payload with
  | error f => rw [hps] at h; cases h
  | ok ps => exact ⟨ps, rfl, rfl⟩

end Ends

/-- What a READ that ended Applied was and did (R95, R98): its ordinals passed the checks, and the acknowledgment's
pairs stand in the table. -/
structure ReadApplied (is : List Byte) (s t : State) (d : DecodedFrame) (ps : List (Byte × Pattern)) : Prop where
  nonempty : is ≠ []
  defined : ∀ i ∈ is, i.toNat < s.params.regCount
  params : t.params = s.params
  split : parsePairs s.params d.payload = .ok ps
  table : t.table = written s.table ps
  result : t.result = .ok (.frame d)

theorem readApplied_of_exec {s t : State} {is : List Byte} (hs : BlockInv s) (h : exec (.read is) s = .next t)
    (ht : t.phase = .applied) : ∃ d ps, ReadApplied is s t d ps := by
  have hr : Ready s := by
    refine ready_of_inFlight_false (Bool.eq_false_iff.mpr fun hflight => ?_)
    rw [exec, execRead, transact_of_inFlight hflight] at h
    cases h
    rw [show s.phase = .applied from ht] at hflight
    cases hflight
  rcases buildRead_cases hs.table is with ⟨f, hb⟩ | ⟨hwf, hb⟩
  · rw [exec_read_of_error hr hb] at h
    cases h
    cases ht
  · rw [exec_read_of_ok hr hb] at h
    cases h
    obtain ⟨hne, hdef, -⟩ := wellFormed_read_iff.mp hwf
    have hvalid := endsWith_of_applied ht
    rw [hvalid] at ht ⊢
    obtain ⟨ps, hps, hend⟩ := applyPairs_of_applied ht
    refine ⟨frameOf (answer (10 + pairsLen s.params is) s), ps, ?_⟩
    rw [hend]
    exact {
      nonempty := by rintro rfl; cases hne
      defined := fun i hi => by simpa [readProblem] using hdef i hi
      params := rfl
      split := hps
      table := rfl
      result := rfl }

/-- Settles O33: the split gave defined ordinals only, so each pair not fixed is written, the last one of a register
last. -/
theorem acknowledgedPairsLandInTheTable : Obligations.AcknowledgedPairsLandInTheTable := by
  intro s t is hs _ h ht
  obtain ⟨d, ps, hread⟩ := readApplied_of_exec hs h ht
  obtain ⟨-, hfit⟩ := parsePairs_eq_ok_iff.mp hread.split
  refine ⟨d, ps, hread.result, hread.split, fun i => ?_⟩
  rw [hread.table]
  exact readReg_written (fun iv hiv => hs.table.1 ▸ (hfit iv hiv).1) i

/-- What an acknowledgment leaves in T, PHASE and FAULT depends on its payload, not on its header (R103). -/
theorem applyPairs_congr {d e : DecodedFrame} {s u : State} (hd : d.payload = e.payload) (hp : s.params = u.params)
    (ht : s.table = u.table) (hm : s.faultMark = u.faultMark) :
    (applyPairs d s).table = (applyPairs e u).table ∧ (applyPairs d s).phase = (applyPairs e u).phase ∧
      (applyPairs d s).faultMark = (applyPairs e u).faultMark := by
  unfold applyPairs
  rw [hd, hp, ht]
  cases parsePairs u.params e.payload with
  | error f => exact ⟨ht, rfl, by simp [rejected, failed, hm]⟩
  | ok ps => exact ⟨rfl, rfl, hm⟩

/-- An answer of the length of the bound is returned whole (R21, R155). -/
theorem answer_of_queued {a : List Byte} {n : Nat} (h : a.length = n) (s : State) :
    answer n { s with answers := a :: s.answers } = a :=
  List.take_of_length_le h.le

/-- Settles O34: both READs are built alike, and each hands its payload to the same application. -/
theorem acknowledgmentHeaderIsNotApplied : Obligations.AcknowledgmentHeaderIsNotApplied := by
  intro s ta tb is a b hs hr ha hb hca hcb hpayload hta htb
  rcases buildRead_cases hs.table is with ⟨f, hbuild⟩ | ⟨-, hbuild⟩
  · cases (exec_read_of_error (s := { s with answers := a :: s.answers }) hr hbuild).symm.trans hta
    cases (exec_read_of_error (s := { s with answers := b :: s.answers }) hr hbuild).symm.trans htb
    exact ⟨rfl, rfl, rfl⟩
  · cases (exec_read_of_ok (s := { s with answers := a :: s.answers }) hr hbuild).symm.trans hta
    cases (exec_read_of_ok (s := { s with answers := b :: s.answers }) hr hbuild).symm.trans htb
    have hansA := answer_of_queued ha s
    have hansB := answer_of_queued hb s
    rw [endsWith_of_valid (by rw [hansA]; exact ha) (by rwa [hansA]),
      endsWith_of_valid (by rw [hansB]; exact hb) (by rwa [hansB]), hansA, hansB]
    exact applyPairs_congr hpayload rfl rfl rfl

/-! ## The host's calls -/

/-- The first of the pairs that may be written (R67, R98). -/
theorem written_cons_of_writable {p : Params} {i : Byte} (hi : writeProblem p i = none) (t : Table) (v : Pattern)
    (ps : List (Byte × Pattern)) : written t ((i, v) :: ps) = written (writeReg t i v) ps := by
  obtain ⟨-, hfixed⟩ := checkIndex_and_requireWritable_iff.mpr hi
  have hfree : ¬ (i = 0#8 ∨ i = 2#8) := fun h => by
    rw [requireWritable_eq, if_pos h] at hfixed
    cases hfixed
  rw [written, List.foldl_cons, if_neg hfree]
  rfl

/-- The SETs of `set_variables` leave their values in the table, and nothing but T and RESULT changed (R67, R104). -/
theorem execOps_sets {s : State} (hr : Ready s) {pairs : List (Byte × Pattern)}
    (h : ∀ iv ∈ pairs, writeProblem s.params iv.1 = none ∧ iv.2.width = 8 * regWidth s.params iv.1)
    (rest : List HostOp) :
    ∃ r, execOps (pairs.map (fun iv => .set iv.1 iv.2) ++ rest) s =
      execOps rest { s with table := written s.table pairs, result := r } := by
  induction pairs generalizing s with
  | nil => exact ⟨s.result, rfl⟩
  | cons x pairs ih =>
    obtain ⟨i, v⟩ := x
    obtain ⟨⟨hi, hv⟩, hpairs⟩ := List.forall_mem_cons.mp h
    obtain ⟨r, hrest⟩ := ih (s := afterSet i v s) hr hpairs
    refine ⟨r, ?_⟩
    rw [List.map_cons, List.cons_append, execOps_cons (execOp_set_ok hr hi hv), hrest,
      written_cons_of_writable hi]
    rfl

/-- Only READ, of the commands, changes T (R17). -/
theorem table_of_exec {s t : State} {i : Instr} (hi : ∀ is, i ≠ .read is) (h : exec i s = .next t) :
    t.table = s.table := by
  by_contra hne
  rcases onlySetAttachAndReadChangeTheTable s t (.command i) h hne with
    ⟨_, _, h⟩ | ⟨_, h⟩ | ⟨_, h⟩ | ⟨is, h, -⟩ | ⟨h, -⟩
  · cases h
  · cases h
  · cases h
  · cases h
    exact hi is rfl
  · cases h

/-- Settles O53: the SETs come first, and neither write command changes T, however it ends. -/
theorem failedAckKeepsTheSets : Obligations.FailedAckKeepsTheSets := by
  intro s pairs ack _ hr hpairs
  obtain ⟨r, hsets⟩ := execOps_sets hr hpairs
    [.command (if ack then .writeAck (pairs.map Prod.fst) else .write (pairs.map Prod.fst))]
  obtain ⟨t, ht, -⟩ := commandsAlwaysAnswer { s with table := written s.table pairs, result := r }
    (if ack then .writeAck (pairs.map Prod.fst) else .write (pairs.map Prod.fst))
  refine ⟨r, t, hsets.trans (execOps_cons (op := .command _) ht []), ht, table_of_exec (fun is => ?_) ht⟩
  cases ack <;> nofun

/-- What a GET of a defined register returns: its value, or its fault (R68). -/
def getAnswer (t : Table) (j : Byte) : Result :=
  match readReg t j with
  | some v => .ok (.value v)
  | none => .failed (.unwrittenRegister j)

/-- A GET changes RESULT, and FAULT when the register holds no value (R68). -/
theorem opGet_eq {s : State} (hr : Ready s) {j : Byte} (hj : j.toNat < s.params.regCount) :
    ∃ m, opGet j s = { s with result := getAnswer s.table j, faultMark := m } ∧
      ((readReg s.table j).isSome = true → m = s.faultMark) := by
  rw [opGet_of_ready hr hj, getAnswer]
  cases readReg s.table j with
  | some v => exact ⟨s.faultMark, rfl, fun _ => rfl⟩
  | none => exact ⟨.set (.unwrittenRegister j), rfl, nofun⟩

/-- The GETs of `get_variables` answer in order; RESULT is the last answer, and FAULT stays when every register holds a
value (R105). -/
theorem getEach_eq {s : State} (hr : Ready s) {is : List Byte} (h : ∀ j ∈ is, j.toNat < s.params.regCount) :
    ∃ m, getEach is s =
        (is.map (getAnswer s.table),
          { s with result := (is.map (getAnswer s.table)).getLast?.getD s.result, faultMark := m }) ∧
      ((∀ j ∈ is, (readReg s.table j).isSome = true) → m = s.faultMark) := by
  induction is generalizing s with
  | nil => exact ⟨s.faultMark, rfl, fun _ => rfl⟩
  | cons j r ih =>
    obtain ⟨hj, hrest⟩ := List.forall_mem_cons.mp h
    obtain ⟨m, hget, hm⟩ := opGet_eq hr hj
    obtain ⟨m', heach, hm'⟩ := ih (s := { s with result := getAnswer s.table j, faultMark := m }) hr hrest
    refine ⟨m', ?_, fun hall => ?_⟩
    · rw [getEach, hget, heach, List.map_cons, List.getLast?_cons]
      rfl
    · obtain ⟨hv, hvs⟩ := List.forall_mem_cons.mp hall
      exact (hm' hvs).trans (hm hv)

/-- Registers that all hold a value answer with their values. -/
theorem exists_values {t : Table} {is : List Byte} (h : ∀ j ∈ is, (readReg t j).isSome = true) :
    ∃ vs : List Pattern, is.map (readReg t) = vs.map some ∧
      is.map (getAnswer t) = vs.map (fun x => .ok (.value x)) := by
  induction is with
  | nil => exact ⟨[], rfl, rfl⟩
  | cons j r ih =>
    obtain ⟨hj, hr⟩ := List.forall_mem_cons.mp h
    obtain ⟨v, hv⟩ := Option.isSome_iff_exists.mp hj
    obtain ⟨vs, hvs, hans⟩ := ih hr
    exact ⟨v :: vs, by rw [List.map_cons, hv, hvs]; rfl, by rw [List.map_cons, getAnswer, hv, hans]; rfl⟩

/-- `get_variables` goes on to its GETs only after a READ that ended Applied (R105). -/
theorem callGetVariables_of_exec {s u : State} {is : List Byte} (h : exec (.read is) s = .next u) :
    callGetVariables is s =
      if u.phase = .applied then .next (some (getEach is u).1, (getEach is u).2) else .next (none, u) := by
  rw [callGetVariables, execOp, h]

/-- Settles O54: an Applied READ has checked its ordinals, so each GET answers for its register, and the READ left no
transaction in flight. -/
theorem getVariablesReadsAfterApplied : Obligations.GetVariablesReadsAfterApplied := by
  intro s u is hs h
  rw [callGetVariables_of_exec h]
  refine ⟨fun hp => if_neg hp, ?_⟩
  rw [← forall_and]
  intro hp
  obtain ⟨d, ps, hread⟩ := readApplied_of_exec hs h hp
  have hr : Ready u := by simp [Ready, hp]
  obtain ⟨m, heach, hm⟩ := getEach_eq hr (hread.params ▸ hread.defined)
  rw [if_pos hp, heach]
  refine ⟨⟨_, rfl, rfl, hp, rfl, rfl⟩, fun hall => ?_⟩
  obtain ⟨vs, hvs, hans⟩ := exists_values hall
  have hne : vs ≠ [] := by
    rintro rfl
    exact hread.nonempty (List.map_eq_nil_iff.mp hvs)
  have hlast := List.getLast?_eq_some_getLast hne
  refine ⟨vs, vs.getLast hne, hvs, hlast, ?_⟩
  rw [hans, List.getLast?_map, hlast, hm hall]
  rfl

end Sys2Proof.Proofs

/-! # The maintenance commands and the reserved commands (R110-R120)

The eight maintenance commands have one build, MAINT (R110): `exec_of_buildMaint` says once what its transaction does, and
each command only names its byte and its prediction. The reserved commands have no frame, and `carries_build` says which
command byte every other command's frame carries. -/

namespace Sys2Proof.Proofs

open Machine Spec Laws

/-! ## The maintenance commands (R110-R118) -/

/-- A command built by MAINT (R110): the placeholder is refused, and a frame of ten bytes is never too long. -/
theorem exec_of_buildMaint {s : State} (hs : BlockInv s) (hr : Ready s) {i : Instr} {c : Command}
    {a : Option AckPrediction} (hb : build s.params s.table i = buildMaint s.params s.table c a) :
    exec i s = .next (
      if regByte s.table 1#8 = 255#8 then rejected (.validation (.badDeviceId 255#8)) s
      else runBuilt (frameFor s.params s.table c [], a) s) := by
  rw [exec_eq_transact, hb, buildMaint, transact_requireUnicast hr hs.table, transact_encodeFrame hr i hs.table]
  rfl

/-- Settles O25: MAINT with no prediction, so nothing is read. -/
theorem unacknowledgedMaintenance : Obligations.UnacknowledgedMaintenance := by
  intro s i c hs hr hic
  have hb : build s.params s.table i = buildMaint s.params s.table c none := by
    simp only [List.mem_cons, List.not_mem_nil, or_false, Prod.mk.injEq] at hic
    obtain ⟨rfl, rfl⟩ | ⟨rfl, rfl⟩ | ⟨rfl, rfl⟩ := hic <;> rfl
  rw [exec_of_buildMaint hs hr hb, runBuilt_none]

/-- Settles O26: MAINT with the prediction of a pure acknowledgment of ten bytes (R57). -/
theorem acknowledgedMaintenance : Obligations.AcknowledgedMaintenance := by
  intro s i c hs hr hic
  have hb : build s.params s.table i = buildMaint s.params s.table c pureAck := by
    simp only [List.mem_cons, List.not_mem_nil, or_false, Prod.mk.injEq] at hic
    obtain ⟨rfl, rfl⟩ | ⟨rfl, rfl⟩ | ⟨rfl, rfl⟩ | ⟨rfl, rfl⟩ := hic <;> rfl
  rw [exec_of_buildMaint hs hr hb, runBuilt_some _ ⟨envelope, .noData⟩ le_rfl]

/-- The payload is what the envelope's ten bytes leave (R85). -/
theorem frameOf_payload_length (rx : List Byte) : (frameOf rx).payload.length = rx.length - 10 := by
  rw [frameOf, List.length_take, List.length_drop]
  omega

/-- Settles O27: MAINT with a raw prediction of SCAN_ACK_LEN bytes, at least an envelope long (R5). -/
theorem scanSensorsReturnsRawPayload : Obligations.ScanSensorsReturnsRawPayload := by
  intro s hs hr
  obtain ⟨-, -, -, -, -, -, ⟨hscan, -⟩, -⟩ := hs.params
  constructor
  · rw [exec_of_buildMaint hs hr (c := .scanSensors) rfl, runBuilt_some _ ⟨_, .raw⟩ hscan]
  · intro hlen
    rw [frameOf_payload_length, hlen]

/-! ## The command byte of a built frame (R50) -/

/-- The frame of a build that succeeds has `b` in byte 4. -/
def Carries (b : Byte) (r : Except Failure Built) : Prop := ∀ f a, r = .ok (f, a) → f[4]? = some b

theorem carries_error (b : Byte) (e : Failure) : Carries b (.error e) := nofun

/-- What stands in front of the last part of a build does not reach its frame's byte 4. -/
theorem Carries.bind {α : Type} {b : Byte} {x : Except Failure α} {g : α → Except Failure Built}
    (h : ∀ a, Carries b (g a)) : Carries b (x >>= g) := by
  intro f a hfa
  obtain ⟨y, -, hy⟩ := bind_eq_ok_iff.mp hfa
  exact h y f a hy

/-- ENCODE puts its command's byte in byte 4, whatever the table holds (R80). -/
theorem carries_encodeFrame {p : Params} {t : Table} {c : Command} {payload : List Byte} {a : Option AckPrediction} :
    Carries (p.cmdCode.code c) (encodeFrame p t c payload >>= fun f => pure (f, a)) := by
  unfold encodeFrame
  split
  · exact carries_error _ _
  · simp only [bind_assoc, pure_bind]
    refine .bind fun _ => .bind fun _ => .bind fun _ => .bind fun _ => ?_
    rintro f b ⟨⟩
    rfl

/-- Every frame carries its own command's byte. A reserved command has no frame (R120). -/
theorem carries_build (p : Params) (t : Table) (i : Instr) : Carries (p.cmdCode.code (commandOf i)) (build p t i) := by
  cases i with
  | write is => exact .bind fun _ => carries_encodeFrame
  | writeAck is => exact .bind fun _ => carries_encodeFrame
  | read is =>
    refine .bind fun _ => .bind fun _ => .bind fun _ => ?_
    split
    · exact carries_error _ _
    · exact carries_encodeFrame
  | syncWrite i ts => exact .bind fun _ => .bind fun _ => .bind fun _ => .bind fun _ => carries_encodeFrame
  | updateId new => exact .bind fun _ => .bind fun _ => carries_encodeFrame
  | syncRead => exact carries_error _ _
  | bulkWrite => exact carries_error _ _
  | bulkRead => exact carries_error _ _
  | _ => exact .bind fun _ => carries_encodeFrame

/-- `CMD_CODE` is one to one (R5). -/
theorem cmdCode_injective {p : Params} (hp : p.Valid) : Function.Injective p.cmdCode.code := by
  intro c d h
  have hc := commandOfCode_code hp c
  rw [h, commandOfCode_code hp d] at hc
  exact (Option.some.inj hc).symm

/-! ## The reserved commands (R120) -/

/-- The three commands whose builds only raise `Unimplemented` of themselves. -/
def IsReserved (c : Command) : Prop := c ∈ [Command.syncRead, .bulkRead, .bulkWrite]

theorem build_of_reserved {i : Instr} (h : IsReserved (commandOf i)) (p : Params) (t : Table) :
    build p t i = .error (.unimplemented (commandOf i)) := by
  cases i with
  | syncRead => rfl
  | bulkRead => rfl
  | bulkWrite => rfl
  | _ => simp [IsReserved, commandOf] at h

theorem exec_of_reserved {s : State} (hr : Ready s) {i : Instr} (h : IsReserved (commandOf i)) :
    exec i s = .next { s with result := .failed (.unimplemented (commandOf i)), phase := .rejected } := by
  rw [exec_eq_transact, build_of_reserved h, transact_of_ready hr]
  rfl

/-- Settles O28: a reserved command's build only raises its error, and the byte in a built frame is that of a command
that is not reserved. -/
theorem reservedCommandsAreRefused : Obligations.ReservedCommandsAreRefused := by
  constructor
  · intro s i c hr hic
    obtain ⟨hc, rfl⟩ : IsReserved c ∧ commandOf i = c := by
      simp only [List.mem_cons, List.not_mem_nil, or_false, Prod.mk.injEq] at hic
      obtain ⟨rfl, rfl⟩ | ⟨rfl, rfl⟩ | ⟨rfl, rfl⟩ := hic <;> simp [IsReserved, commandOf]
    exact exec_of_reserved hr hc
  · intro p t i f a c hp hb hc hbyte
    have hcode : p.cmdCode.code (commandOf i) = p.cmdCode.code c :=
      Option.some.inj ((carries_build p t i f a hb).symm.trans hbyte)
    obtain rfl := cmdCode_injective hp hcode
    rw [build_of_reserved hc] at hb
    cases hb

end Sys2Proof.Proofs

/-! # Failures and Busy (R130, R131, R138, R139, R142)

Every operation of R138 is a command's transaction or a local operation (`operation_cases`), and `failureEnd_of_execOp` says
once how one that fails ends: with its report alone, or as a rejected transaction. -/

namespace Sys2Proof.Proofs

open Machine Spec Laws

/-! ## The codes (R130) -/

/-- Settles O35: the codes by their definition, the faults by their codes. -/
theorem outcomeCodes : Obligations.OutcomeCodes :=
  ⟨fun _ => rfl, fun _ => rfl, fun _ _ => rfl, rfl, fun _ => rfl, fun _ => rfl, fun _ => rfl, fun _ => rfl, fun _ => rfl,
    isFault_iff⟩

/-! ## The operations of R138 -/

theorem operation_cases {op : HostOp} (h : isOperation op = true) (s : State) :
    (∃ i, op = .command i) ∨ (isCommand op = false ∧ ∃ r, execOp op s = .next (localOp op r s)) := by
  cases op with
  | command i => exact .inl ⟨i, rfl⟩
  | attach id => exact .inr ⟨rfl, _, rfl⟩
  | set i v => exact .inr ⟨rfl, _, rfl⟩
  | get i => exact .inr ⟨rfl, _, rfl⟩
  | byteWidth i => exact .inr ⟨rfl, _, rfl⟩
  | encoding i => exact .inr ⟨rfl, _, rfl⟩
  | _ => cases h

/-! ## Busy (R138) -/

/-- Busy is a fault, so it stands in FAULT too (R130). -/
theorem failed_busy (op : HostOp) (s : State) :
    failed (.busy op) s = { s with result := .failed (.busy op), faultMark := .set (.busy op) } := by
  simp [failed, failureCode]

theorem beginTransaction_of_inFlight {s : State} (h : inFlight s.phase = true) (i : Instr) (r : Except Failure Built) :
    beginTransaction i r s = failed (.busy (.command i)) s := by
  unfold beginTransaction
  rw [if_pos h, raiseBusy, raiseFailure_eq]

/-- Settles O19: a transaction, its first part and a local operation all look at PHASE first. -/
theorem busyWhileInFlight : Obligations.BusyWhileInFlight := by
  intro s _ hphase
  have hflight := inFlight_of_phase hphase
  refine ⟨fun op hop => ?_, fun i => ?_⟩
  · rcases operation_cases hop s with ⟨i, rfl⟩ | ⟨-, r, hr⟩
    · rw [execOp, exec_eq_transact, transact_of_inFlight hflight, failed_busy]
    · rw [hr, localOp_of_inFlight hflight, failed_busy]
  · rw [execOp, opBegin, beginTransaction_of_inFlight hflight, failed_busy]

/-- No failure of `x` is Busy. -/
def NeverBusy {α : Type} (x : Except Failure α) : Prop := ∀ op, x ≠ .error (.busy op)

theorem neverBusy_ok {α : Type} (a : α) : NeverBusy (.ok a) := nofun

theorem NeverBusy.bind {α β : Type} {x : Except Failure α} {g : α → Except Failure β} (hx : NeverBusy x)
    (hg : ∀ a, NeverBusy (g a)) : NeverBusy (x >>= g) := by
  cases x with
  | error f => exact fun op h => hx op (congrArg Except.error (Except.error.inj h))
  | ok a => exact hg a

/-- A check that raises only a ValidationError (R132). -/
theorem neverBusy_of_validation {α : Type} {x y : Except Failure α} {c : Prop} [Decidable c] {v : Validation}
    (hx : x = if c then .error (.validation v) else y) (hy : NeverBusy y) : NeverBusy x := by
  rw [hx]
  split
  · nofun
  · exact hy

theorem neverBusy_checkIndex (p : Params) (i : Byte) : NeverBusy (checkIndex p i) :=
  neverBusy_of_validation (checkIndex_eq p i) (neverBusy_ok ())

theorem neverBusy_requireWritable (i : Byte) : NeverBusy (requireWritable i) :=
  neverBusy_of_validation (requireWritable_eq i) (neverBusy_ok ())

theorem neverBusy_checkDeviceId (id : Byte) : NeverBusy (checkDeviceId id) :=
  neverBusy_of_validation (checkDeviceId_eq id) (neverBusy_ok ())

theorem neverBusy_requireNonempty {α : Type} (l : List α) : NeverBusy (requireNonempty l) :=
  neverBusy_of_validation (requireNonempty_eq l) (neverBusy_ok ())

theorem neverBusy_headerByte (t : Table) (i : Byte) : NeverBusy (headerByte t i) := by
  unfold headerByte
  split <;> nofun

theorem neverBusy_requireUnicast (t : Table) : NeverBusy (requireUnicast t) :=
  (neverBusy_headerByte t 1#8).bind neverBusy_checkDeviceId

theorem neverBusy_checkIndices (p : Params) (is : List Byte) : NeverBusy (checkIndices p is) := by
  induction is with
  | nil => exact neverBusy_ok ()
  | cons i r ih => exact (neverBusy_checkIndex p i).bind fun _ => ih

theorem neverBusy_checkWritables (p : Params) (is : List Byte) : NeverBusy (checkWritables p is) := by
  induction is with
  | nil => exact neverBusy_ok ()
  | cons i r ih => exact (neverBusy_checkIndex p i).bind fun _ => (neverBusy_requireWritable i).bind fun _ => ih

theorem neverBusy_checkTargets (p : Params) (i : Byte) (ts : List (Byte × Pattern)) : NeverBusy (checkTargets p i ts) := by
  induction ts with
  | nil => exact neverBusy_ok ()
  | cons x r ih =>
    exact (neverBusy_checkDeviceId x.1).bind fun _ =>
      (neverBusy_of_validation (checkValue_eq p i x.2) (neverBusy_ok ())).bind fun _ => ih

theorem neverBusy_pairsFromT (p : Params) (t : Table) (is : List Byte) : NeverBusy (pairsFromT p t is) := by
  rw [pairsFromT_eq]
  split <;> nofun

theorem neverBusy_encodeFrame (p : Params) (t : Table) (c : Command) (payload : List Byte) :
    NeverBusy (encodeFrame p t c payload) :=
  neverBusy_of_validation rfl <| (neverBusy_headerByte t _).bind fun _ => (neverBusy_headerByte t _).bind fun _ =>
    (neverBusy_headerByte t _).bind fun _ => (neverBusy_headerByte t _).bind fun _ => neverBusy_ok _

/-- The last part of every build (R92). -/
theorem neverBusy_framed {p : Params} {t : Table} {c : Command} {payload : List Byte} {a : Option AckPrediction} :
    NeverBusy (encodeFrame p t c payload >>= fun f => pure (f, a)) :=
  (neverBusy_encodeFrame p t c payload).bind fun _ => neverBusy_ok _

theorem neverBusy_writePayload (p : Params) (t : Table) (is : List Byte) : NeverBusy (writePayload p t is) :=
  (neverBusy_requireUnicast t).bind fun _ => (neverBusy_requireNonempty is).bind fun _ =>
    (neverBusy_checkWritables p is).bind fun _ => neverBusy_pairsFromT p t is

/-- No build raises Busy: that is TRANSACT's, from PHASE alone (R138). -/
theorem neverBusy_build (p : Params) (t : Table) (i : Instr) : NeverBusy (build p t i) := by
  cases i with
  | write is => exact (neverBusy_writePayload p t is).bind fun _ => neverBusy_framed
  | writeAck is => exact (neverBusy_writePayload p t is).bind fun _ => neverBusy_framed
  | read is =>
    exact (neverBusy_requireUnicast t).bind fun _ => (neverBusy_requireNonempty is).bind fun _ =>
      (neverBusy_checkIndices p is).bind fun _ => neverBusy_of_validation rfl (neverBusy_framed)
  | syncWrite i ts =>
    exact (neverBusy_checkIndex p i).bind fun _ => (neverBusy_requireWritable i).bind fun _ =>
      (neverBusy_requireNonempty ts).bind fun _ => (neverBusy_checkTargets p i ts).bind fun _ => neverBusy_framed
  | updateId new =>
    exact (neverBusy_requireUnicast t).bind fun _ => (neverBusy_checkDeviceId new).bind fun _ => neverBusy_framed
  | syncRead => nofun
  | bulkWrite => nofun
  | bulkRead => nofun
  | _ => exact (neverBusy_requireUnicast t).bind fun _ => neverBusy_framed

/-! ## How an operation that fails ends (R131, R142) -/

/-- The state after an operation that ended in failure `f`. -/
inductive FailureEnd (s : State) (op : HostOp) (f : Failure) : State → Prop
  /-- A local operation, or Busy: only the report. -/
  | reported (h : isCommand op = false ∨ f = .busy op) : FailureEnd s op f (failed f s)
  /-- A command whose build failed: no byte was sent. -/
  | refused (hc : isCommand op = true) (hf : f ≠ .busy op) : FailureEnd s op f (rejected f s)
  /-- A command whose acknowledgment failed: one frame was sent and one answer read. -/
  | unacknowledged (hc : isCommand op = true) (hf : f ≠ .busy op) (frame : List Byte) (n : Nat) :
    FailureEnd s op f (rejected f (afterRead frame n s))

/-- The receive step fails with an error, never with a fault, and clears the latch (R153, R141). -/
theorem receive_failed {a : AckPrediction} {rx : List Byte} {s : State} {f : Failure}
    (h : (receive a rx s).result = .failed f) :
    failureCode f ≤ 4 ∧ receive a rx s = rejectCommand f { s with ackLatch := none } := by
  rcases receive_cases a rx s with ⟨g, hg, hr⟩ | ⟨d, hr⟩ | ⟨d, t, -, -, hr⟩
  · rw [hr] at h
    cases h
    exact ⟨hg, hr⟩
  · rw [hr] at h
    cases h
  · rw [hr] at h
    cases h

/-- A transaction that was run fails only in its receive step (R153). -/
theorem runBuilt_failed {b : Built} {s : State} {f : Failure} (h : (runBuilt b s).result = .failed f) :
    failureCode f ≤ 4 ∧ ∃ n, runBuilt b s = rejected f (afterRead b.1 n s) := by
  obtain ⟨frame, a⟩ := b
  cases a with
  | none => cases h
  | some a =>
    obtain ⟨hf, hr⟩ := receive_failed h
    refine ⟨hf, a.len, hr.trans ?_⟩
    rw [rejectCommand_eq]
    simp [rejected, failed, afterRead, boundedRead, settle, transmit, rxBytes, answer, nextAnswer]

theorem failureEnd_transact {s : State} {i : Instr} {f : Failure}
    (h : (transact i (build s.params s.table i) s).result = .failed f) :
    FailureEnd s (.command i) f (transact i (build s.params s.table i) s) := by
  cases hflight : inFlight s.phase with
  | true =>
    rw [transact_of_inFlight hflight] at h ⊢
    cases h
    exact .reported (.inr rfl)
  | false =>
    rw [transact_of_ready (ready_of_inFlight_false hflight)] at h ⊢
    cases hb : build s.params s.table i with
    | error g =>
      rw [hb] at h
      cases h
      exact .refused rfl fun hbusy => neverBusy_build _ _ i _ (hbusy ▸ hb)
    | ok b =>
      rw [hb] at h
      obtain ⟨hf, n, hrun⟩ := runBuilt_failed h
      have hbusy : f ≠ .busy (.command i) := by
        rintro rfl
        simp [failureCode] at hf
      show FailureEnd s (.command i) f (runBuilt b s)
      rw [hrun]
      exact .unacknowledged rfl hbusy b.1 n

theorem localOp_failed {op : HostOp} {r : Except Failure (Table × Data)} {s : State} {f : Failure}
    (h : (localOp op r s).result = .failed f) : localOp op r s = failed f s := by
  cases hflight : inFlight s.phase with
  | true =>
    rw [localOp_of_inFlight hflight] at h ⊢
    cases h
    rfl
  | false =>
    rw [localOp_of_ready (ready_of_inFlight_false hflight)] at h ⊢
    cases r with
    | error g => cases h; rfl
    | ok td => cases h

theorem failureEnd_of_execOp {s t : State} {op : HostOp} {f : Failure} (hop : isOperation op = true)
    (h : execOp op s = .next t) (hf : t.result = .failed f) : FailureEnd s op f t := by
  rcases operation_cases hop s with ⟨i, rfl⟩ | ⟨hlocal, r, hr⟩
  · rw [execOp, exec_eq_transact] at h
    cases h
    exact failureEnd_transact hf
  · rw [hr] at h
    cases h
    rw [localOp_failed hf]
    exact .reported (.inl hlocal)

section FailureEnd

variable {s t : State} {op : HostOp} {f : Failure}

theorem FailureEnd.table (h : FailureEnd s op f t) : t.table = s.table := by
  cases h <;> rfl

theorem FailureEnd.faultMark (h : FailureEnd s op f t) :
    t.faultMark = if failureCode f = 6 ∨ failureCode f = 7 then .set f else s.faultMark := by
  cases h <;> rfl

end FailureEnd

/-- Settles O36: the ends `FailureEnd` lists, each a literal change of the state before it. -/
theorem failureLeavesTheTable : Obligations.FailureLeavesTheTable := by
  intro s t op f hop h hf
  have hend := failureEnd_of_execOp hop h hf
  refine ⟨hend.table, ?_, fun hclear => hclear ▸ hend.faultMark⟩
  cases hend with
  | reported hlocal =>
    rw [if_neg (by rcases hlocal with hlocal | hlocal <;> simp [hlocal])]
    exact ⟨rfl, rfl, rfl⟩
  | refused hc hbusy =>
    rw [if_pos ⟨hc, hbusy⟩]
    exact ⟨rfl, .inl ⟨rfl, rfl⟩⟩
  | unacknowledged hc hbusy frame n =>
    rw [if_pos ⟨hc, hbusy⟩]
    exact ⟨rfl, .inr ⟨frame, n, answer n s, rfl, rfl⟩⟩

/-! ## The registry's error (R139) -/

/-- UnknownDevice in the RESULT of `t` is the RESULT of `s`. -/
def UnknownDeviceIsOld (s t : State) : Prop := ∀ id, t.result = .failed (.unknownDevice id) → t.result = s.result

theorem UnknownDeviceIsOld.trans {s t u : State} (h : UnknownDeviceIsOld s t) (h' : UnknownDeviceIsOld t u) :
    UnknownDeviceIsOld s u := fun id hu =>
  have htu := h' id hu
  htu.trans (h id (htu ▸ hu))

theorem unknownDeviceIsOld_of_eq {s t : State} (h : t.result = s.result) : UnknownDeviceIsOld s t := fun _ _ => h

theorem unknownDeviceIsOld_of_ok {s t : State} {d : Data} (h : t.result = .ok d) : UnknownDeviceIsOld s t :=
  fun _ ht => by rw [h] at ht; cases ht

/-- The codes up to 7 are the block's own (R130). -/
theorem unknownDeviceIsOld_of_failed {s t : State} {f : Failure} (h : t.result = .failed f) (hf : failureCode f ≤ 7) :
    UnknownDeviceIsOld s t := fun id ht => absurd (h.symm.trans ht) (not_unknownDevice hf id)

theorem unknownDeviceIsOld_settleDone (s : State) : UnknownDeviceIsOld s (settleDone s) := by
  rcases settleDone_cases s with h | ⟨-, -, h⟩ | ⟨_, -, -, h⟩
  · exact unknownDeviceIsOld_of_eq (congrArg State.result h)
  · exact unknownDeviceIsOld_of_ok (congrArg State.result h)
  · exact unknownDeviceIsOld_of_eq ((congrArg State.result h).trans rfl)

theorem unknownDeviceIsOld_readDone (s : State) : UnknownDeviceIsOld s (readDone s) := by
  rcases readDone_cases s with h | ⟨a, -, -, h⟩
  · exact unknownDeviceIsOld_of_eq (congrArg State.result h)
  · rcases receive_cases a (rxBytes a.len s) (boundedRead a.len s) with ⟨f, hf, hr⟩ | ⟨d, hr⟩ | ⟨d, t, -, -, hr⟩
    · exact unknownDeviceIsOld_of_failed (congrArg State.result (h.trans hr)) (by omega)
    · exact unknownDeviceIsOld_of_ok (congrArg State.result (h.trans hr))
    · exact unknownDeviceIsOld_of_ok (congrArg State.result (h.trans hr))

theorem Performed.unknownDeviceIsOld {s t : State} {op : HostOp} (h : Performed s op t) : UnknownDeviceIsOld s t := by
  cases h with
  | reported hf => exact unknownDeviceIsOld_of_failed rfl hf
  | rejected _ hf => exact unknownDeviceIsOld_of_failed rfl hf
  | transmitted => exact unknownDeviceIsOld_of_eq rfl
  | @transacted i b _ =>
    have hsent : UnknownDeviceIsOld s (transmit b s) := unknownDeviceIsOld_of_eq rfl
    exact (hsent.trans (unknownDeviceIsOld_settleDone _)).trans (unknownDeviceIsOld_readDone _)
  | settled => exact unknownDeviceIsOld_settleDone s
  | received => exact unknownDeviceIsOld_readDone s
  | answered => exact unknownDeviceIsOld_of_ok rfl
  | handed => exact unknownDeviceIsOld_of_eq rfl
  | rated => exact unknownDeviceIsOld_of_eq rfl

/-- Settles O51: every report the block makes has a code of at most 7 (R130). -/
theorem blockNeverRaisesUnknownDevice : Obligations.BlockNeverRaisesUnknownDevice :=
  fun _ _ _ id h => (performed_of_execOp h).unknownDeviceIsOld id

end Sys2Proof.Proofs

/-! # A command's transaction, whole and split, and the block before any ATTACH (R151-R160)

A command's build is its encoder's frame beside its row's prediction (`build_eq_ok_iff`), and `receive_ends` says once how the
receive step ends. Both the whole transaction and its split parts follow from these two. -/

namespace Sys2Proof.Proofs

open Machine Spec Laws

/-! ## A command's build -/

/-- A build gives the encoder's frame and the prediction of the command's row (R57, R62, R92). -/
theorem build_eq_ok_iff {p : Params} {t : Table} (hp : p.Valid) (ht : TableOk p t) {i : Instr} {f : List Byte}
    {a : Option AckPrediction} :
    build p t i = .ok (f, a) ↔
      (encode p t i = some f ∧ (isUnicast i = true → regByte t 1#8 ≠ 255#8)) ∧ a = prediction p i := by
  rw [← encoderGivesTheTransmittedFrame p t i f hp ht]
  constructor
  · intro hb
    exact ⟨⟨a, hb⟩, (predicted_of_build hb).eq⟩
  · rintro ⟨⟨b, hb⟩, rfl⟩
    rwa [← (predicted_of_build hb).eq]

theorem exec_of_build {s : State} (hr : Ready s) {i : Instr} {b : Built} (hb : build s.params s.table i = .ok b) :
    exec i s = .next (runBuilt b s) := by
  rw [exec_eq_transact, transact_of_ready hr, hb]

theorem exec_of_error {s : State} (hr : Ready s) {i : Instr} {f : Failure} (hb : build s.params s.table i = .error f) :
    exec i s = .next (rejected f s) := by
  rw [exec_eq_transact, transact_of_ready hr, hb]

/-! ## Completion -/

/-- Between transactions the latch and the settle interval stay clear over a transaction without acknowledgment (R153). -/
theorem sentOnly_of_quiet {s : State} (hq : s.settlePending = false ∧ s.ackLatch = none) (f : List Byte) :
    sentOnly f s = { s with
      bus := s.bus ++ [.write f, .sleep 10 s.baud], result := .ok .empty, phase := .applied } := by
  obtain ⟨hsettle, hlatch⟩ := hq
  simp [sentOnly, hsettle, hlatch]

/-- They stay clear over a transaction with an acknowledgment too (R153). -/
theorem afterRead_of_quiet {s : State} (hq : s.settlePending = false ∧ s.ackLatch = none) (f : List Byte) (n : Nat) :
    afterRead f n s = { s with
      bus := s.bus ++ [.write f, .sleep 10 s.baud, .read n (answer n s)]
      answers := s.answers.tail
      draws := s.draws + 1 } := by
  obtain ⟨hsettle, hlatch⟩ := hq
  simp [afterRead, hsettle, hlatch]

/-- Settles O29: the build gives the frame and no prediction, so the transaction ends after the settle interval. -/
theorem unacknowledgedCommandsComplete : Obligations.UnacknowledgedCommandsComplete := by
  intro s i f hs hr hf hpred hid
  have hb := (build_eq_ok_iff hs.params hs.table).mpr ⟨⟨hf, hid⟩, hpred.symm⟩
  rw [exec_of_build hr hb, runBuilt_none, sentOnly_of_quiet (quiet_of_ready hs hr)]

/-- Settles O30: the build gives the frame and the prediction, the answer passes the decoder's two checks, and what is then
done with the frame goes by the kind predicted. -/
theorem acknowledgedCommandsComplete : Obligations.AcknowledgedCommandsComplete := by
  intro s i f n k ps hs hr hf hpred hid hlen hcrc hsplit
  have hb := (build_eq_ok_iff hs.params hs.table).mpr ⟨⟨hf, fun _ => hid⟩, hpred.symm⟩
  obtain ⟨hn, -⟩ := (predicted_of_build hb).len hs.params _ rfl
  rw [exec_of_build hr hb, runBuilt_some f ⟨n, k⟩ hn, endsWith_of_valid hlen hcrc,
    afterRead_of_quiet (quiet_of_ready hs hr)]
  cases k with
  | readData => simp [applyPairs, hsplit rfl]
  | noData => rfl
  | raw => rfl

/-! ## The transport's calls -/

@[simp] theorem receive_bus (a : AckPrediction) (rx : List Byte) (s : State) : (receive a rx s).bus = s.bus := by
  rcases receive_cases a rx s with ⟨f, -, h⟩ | ⟨d, h⟩ | ⟨d, t, -, -, h⟩ <;> simp [h]

@[simp] theorem receive_ackLatch (a : AckPrediction) (rx : List Byte) (s : State) : (receive a rx s).ackLatch = none := by
  rcases receive_cases a rx s with ⟨f, -, h⟩ | ⟨d, h⟩ | ⟨d, t, -, -, h⟩ <;> simp [h]

/-- A built transaction without acknowledgment writes and sleeps (R155, R156). -/
theorem runBuilt_none_bus (f : List Byte) (s : State) :
    (runBuilt (f, none) s).bus = s.bus ++ [.write f, .sleep 10 s.baud] := by
  rw [runBuilt_none]
  rfl

/-- A built transaction with an acknowledgment writes, sleeps, and reads the length predicted (R155, R159). -/
theorem runBuilt_some_bus (f : List Byte) (a : AckPrediction) (s : State) :
    (runBuilt (f, some a) s).bus = s.bus ++ [.write f, .sleep 10 s.baud, .read a.len (rxBytes a.len s)] := by
  simp [runBuilt, awaitAck, rxBytes, nextAnswer]

/-- Settles O37: a command that is Busy or whose build fails makes no call; the others' calls are those of a built
transaction. -/
theorem oneWriteAtMostOneRead : Obligations.OneWriteAtMostOneRead := by
  intro s t i h
  rw [exec_eq_transact] at h
  cases h
  cases hflight : inFlight s.phase with
  | true =>
    rw [transact_of_inFlight hflight]
    exact .inl rfl
  | false =>
    rw [transact_of_ready (ready_of_inFlight_false hflight)]
    cases build s.params s.table i with
    | error f => exact .inl rfl
    | ok b =>
      obtain ⟨f, a⟩ := b
      cases a with
      | none => exact .inr (.inl ⟨f, runBuilt_none_bus f s⟩)
      | some a =>
        exact .inr (.inr ⟨f, a.len, rxBytes a.len s, runBuilt_some_bus f a s, rxBytes_length_le a.len s⟩)

/-! ## The split transaction (R154) -/

/-- The first part of a transaction whose build fails: rejected, no byte sent (R131, R154). -/
theorem opBegin_of_error {s : State} (hr : Ready s) {i : Instr} {f : Failure} (hb : build s.params s.table i = .error f) :
    opBegin i s = rejectCommand f s := by
  rw [opBegin, hb]
  exact if_neg (by simp [inFlight_false_of_ready hr])

/-- The first part of a transaction whose build succeeds: its transmission (R154). -/
theorem opBegin_of_build {s : State} (hr : Ready s) {i : Instr} {b : Built} (hb : build s.params s.table i = .ok b) :
    opBegin i s = transmit b s := by
  rw [opBegin, hb]
  exact if_neg (by simp [inFlight_false_of_ready hr])

/-- Outside FrameSent no settle interval is awaited (R144). -/
theorem settleDone_of_phase {s : State} (h : s.phase ≠ .frameSent) : settleDone s = s := by
  rcases settleDone_cases s with hs | ⟨hp, -, -⟩ | ⟨_, hp, -, -⟩
  · exact hs
  · exact absurd hp h
  · exact absurd hp h

/-- The settle interval's end in FrameSent, where the invariant has one pending (R154). -/
theorem settleDone_of_frameSent {s : State} (hs : BlockInv s) (h : s.phase = .frameSent) :
    settleDone s =
      match s.ackLatch with
      | none => completeCommand .empty (settle s)
      | some _ => { settle s with phase := .awaitingAck } := by
  have hpending := hs.latch
  rw [LatchOk, h] at hpending
  unfold settleDone
  split
  · rfl
  · next hno => exact absurd hpending (hno h)

/-- Outside AwaitingAck no read is outstanding (R144). -/
theorem readDone_of_phase {s : State} (h : s.phase ≠ .awaitingAck) : readDone s = s := by
  rcases readDone_cases s with hs | ⟨_, hp, -, -⟩
  · exact hs
  · exact absurd hp h

/-- The read's end in AwaitingAck is bounded by the latched length (R158). -/
theorem readDone_of_awaitingAck {s : State} {a : AckPrediction} (h : s.phase = .awaitingAck) (ha : s.ackLatch = some a) :
    readDone s = receive a (answer a.len s) (boundedRead a.len s) := by
  rw [readDone, h, ha]
  rfl

/-- Settles O38: a built transaction is its parts one after another, and after a failed build the transport's returns find
nothing awaited. -/
theorem splitTransactionGivesTheSameResult : Obligations.SplitTransactionGivesTheSameResult := by
  intro s i hr
  show Host.Outcome.next (readDone (settleDone (opBegin i s))) = exec i s
  cases hb : build s.params s.table i with
  | error f =>
    rw [opBegin_of_error hr hb, settleDone_of_phase (by simp), readDone_of_phase (by simp), exec_of_error hr hb,
      rejectCommand_eq]
  | ok b => rw [opBegin_of_build hr hb, exec_of_build hr hb, runBuilt_eq_parts]

/-- Settles O40: the transmission writes the frame and the prediction the build gave, together. -/
theorem predictionIsLatchedWithItsFrame : Obligations.PredictionIsLatchedWithItsFrame := by
  refine ⟨fun s t i hs hr h hsent => ?_, fun s t a hp ha h => ?_, fun s t hs hp h => ?_⟩
  · cases h
    cases hb : build s.params s.table i with
    | error f =>
      rw [opBegin_of_error hr hb] at hsent
      cases hsent
    | ok b =>
      obtain ⟨f, a⟩ := b
      obtain ⟨⟨hf, -⟩, rfl⟩ := (build_eq_ok_iff hs.params hs.table).mp hb
      exact ⟨f, hf, opBegin_of_build hr hb⟩
  · cases h
    rw [readDone_of_awaitingAck hp ha]
    exact ⟨receive_bus _ _ _, receive_ackLatch _ _ _⟩
  · cases h
    have hend := settleDone_of_frameSent hs hp
    refine ⟨?_, settleDone_ackLatch s, ?_⟩
    all_goals
      rw [hend]
      cases s.ackLatch <;> rfl

/-! ## PHASE (R154) -/

/-- A transaction's end: Applied with an `Ok` RESULT, or Rejected with a failure (R131, R153). -/
def Ended (t : State) : Prop :=
  (t.phase = .applied ∧ ∃ d, t.result = .ok d) ∨ (t.phase = .rejected ∧ ∃ f, t.result = .failed f)

theorem Ended.ready {t : State} (h : Ended t) : Ready t := by
  rcases h with ⟨hp, -⟩ | ⟨hp, -⟩ <;> simp [Ready, hp]

theorem Ended.phase {t : State} (h : Ended t) :
    (t.phase = .applied ∨ t.phase = .rejected) ∧ (t.phase = .applied ↔ ∃ d, t.result = .ok d) := by
  rcases h with ⟨hp, d, hd⟩ | ⟨hp, f, hf⟩
  · simp [hp, hd]
  · simp [hp, hf]

theorem ended_runBuilt (b : Built) (s : State) : Ended (runBuilt b s) := by
  obtain ⟨frame, a⟩ := b
  cases a with
  | none => exact .inl ⟨rfl, .empty, rfl⟩
  | some a =>
    show Ended (receive a _ _)
    rcases receive_cases a _ _ with ⟨f, -, h⟩ | ⟨d, h⟩ | ⟨d, t, -, -, h⟩
    · rw [h]
      exact .inr ⟨rfl, f, rfl⟩
    · rw [h]
      exact .inl ⟨rfl, .frame d, rfl⟩
    · rw [h]
      exact .inl ⟨rfl, .frame d, rfl⟩

/-- A command issued between transactions ends its transaction in the same step (R153). -/
theorem ended_of_exec {s t : State} (hr : Ready s) {i : Instr} (h : exec i s = .next t) : Ended t := by
  cases hb : build s.params s.table i with
  | error f =>
    cases (exec_of_error hr hb).symm.trans h
    exact .inr ⟨rfl, f, rfl⟩
  | ok b =>
    cases (exec_of_build hr hb).symm.trans h
    exact ended_runBuilt b s

/-- The answer is a valid frame of the predicted length, and its payload splits into pairs if it is to be applied
(R153, R154). -/
def Acknowledges (p : Params) (a : AckPrediction) (rx : List Byte) : Prop :=
  ∃ d, decodeAndValidate rx a.len = .ok d ∧ (a.kind = .readData → ∃ ps, parsePairs p d.payload = .ok ps)

theorem failureCode_of_decodeAndValidate {rx : List Byte} {n : Nat} {f : Failure} (h : decodeAndValidate rx n = .error f) :
    2 ≤ failureCode f ∧ failureCode f ≤ 4 := by
  rw [decodeAndValidate_eq] at h
  split at h
  · cases h
    simp [failureCode]
  · split at h <;> cases h
    simp [failureCode]

theorem failureCode_of_parsePairs {p : Params} {b : List Byte} {f : Failure} (h : parsePairs p b = .error f) :
    failureCode f = 4 := by
  obtain ⟨_, _, _, -, -, rfl, -⟩ := malformedPayloadOffset p b f h
  rfl

/-- The receive step's ends by what the environment answered (R153, R154): an answer that does not acknowledge is rejected
with one of the codes 2 to 4, one that does is Applied. -/
theorem receive_ends (a : AckPrediction) (rx : List Byte) (s : State) :
    (¬ Acknowledges s.params a rx ∧ ∃ f, (2 ≤ failureCode f ∧ failureCode f ≤ 4) ∧
      receive a rx s = rejectCommand f { s with ackLatch := none }) ∨
    (Acknowledges s.params a rx ∧ ∃ d t,
      receive a rx s = completeCommand (.frame d) { s with ackLatch := none, table := t }) := by
  unfold receive Acknowledges
  cases hx : decodeAndValidate rx a.len with
  | error f => exact .inl ⟨by simp, f, failureCode_of_decodeAndValidate hx, rfl⟩
  | ok d =>
    cases hk : a.kind with
    | noData => exact .inr ⟨⟨d, rfl, nofun⟩, d, s.table, rfl⟩
    | raw => exact .inr ⟨⟨d, rfl, nofun⟩, d, s.table, rfl⟩
    | readData =>
      simp only [applyAck]
      cases hps : parsePairs s.params d.payload with
      | error f =>
        have hf := failureCode_of_parsePairs hps
        exact .inl ⟨by simp [hps], f, by omega, rfl⟩
      | ok ps => exact .inr ⟨⟨d, rfl, fun _ => ⟨ps, hps⟩⟩, d, writePairs s.table ps, rfl⟩

@[simp] theorem localOp_phase (op : HostOp) (r : Except Failure (Table × Data)) (s : State) :
    (localOp op r s).phase = s.phase := by
  cases hflight : inFlight s.phase with
  | true =>
    rw [localOp_of_inFlight hflight]
    rfl
  | false =>
    rw [localOp_of_ready (ready_of_inFlight_false hflight)]
    cases r <;> rfl

theorem phase_of_opHandTable {s t : State} {u : Table} (h : opHandTable u s = .next t) : t.phase = s.phase := by
  unfold opHandTable at h
  split at h
  · cases h
    rfl
  · split at h
    · cases h
      rfl
    · cases h

theorem phase_of_opSetBaud {s t : State} {b : Nat} (h : opSetBaud b s = .next t) : t.phase = s.phase := by
  unfold opSetBaud at h
  split at h
  · cases h
  · cases h
    rfl

theorem inFlight_of_not_ready {s : State} (h : ¬ Ready s) : inFlight s.phase = true := by
  by_contra hf
  exact h (ready_of_inFlight_false (Bool.eq_false_iff.mpr hf))

theorem latched_of_awaitingAck {s : State} (hs : BlockInv s) (h : s.phase = .awaitingAck) : ∃ a, s.ackLatch = some a := by
  have hl := hs.latch
  rw [LatchOk, h] at hl
  exact Option.isSome_iff_exists.mp hl.2

/-- Settles O39: a whole command by `Ended`, the end of a read by `receive_ends`; the other operations by PHASE alone. -/
theorem phaseFollowsTheTable : Obligations.PhaseFollowsTheTable := by
  intro s t op hs h
  cases op with
  | command i =>
    show if Ready s then _ else _
    split
    · next hr => exact (ended_of_exec hr h).phase
    · next hr =>
      rw [execOp, exec_eq_transact, transact_of_inFlight (inFlight_of_not_ready hr)] at h
      cases h
      rfl
  | begin i =>
    cases h
    show if Ready s then _ else _
    split
    · next hr =>
      cases hb : build s.params s.table i with
      | error f => simp [opBegin_of_error hr hb]
      | ok b => simp [opBegin_of_build hr hb]
    · next hr => rw [opBegin, beginTransaction_of_inFlight (inFlight_of_not_ready hr)]; rfl
  | settled =>
    cases h
    show if s.phase = .frameSent then _ else _
    split
    · next hp =>
      rw [settleDone_of_frameSent hs hp]
      cases s.ackLatch <;> simp
    · next hp => rw [settleDone_of_phase hp]
  | received =>
    cases h
    show if s.phase = .awaitingAck then _ else _
    split
    · next hp =>
      obtain ⟨a, ha⟩ := latched_of_awaitingAck hs hp
      rw [readDone_of_awaitingAck hp ha]
      rcases receive_ends a (answer a.len s) (boundedRead a.len s) with ⟨hno, f, hf, hrec⟩ | ⟨hyes, d, u, hrec⟩
      · rw [hrec]
        refine ⟨.inr rfl, by simp, by simpa using hf, fun b hb => ?_⟩
        obtain rfl : a = b := Option.some.inj (ha.symm.trans hb)
        exact iff_of_false nofun hno
      · rw [hrec]
        refine ⟨.inl rfl, by simp, by simp, fun b hb => ?_⟩
        obtain rfl : a = b := Option.some.inj (ha.symm.trans hb)
        exact iff_of_true rfl hyes
    · next hp => rw [readDone_of_phase hp]
  | handTable u => exact phase_of_opHandTable h
  | setBaud b => exact phase_of_opSetBaud h
  | attach id => cases h; exact localOp_phase ..
  | set i v => cases h; exact localOp_phase ..
  | get i => cases h; exact localOp_phase ..
  | byteWidth i => cases h; exact localOp_phase ..
  | encoding i => cases h; exact localOp_phase ..

/-! ## Before any ATTACH (R151) -/

/-- Every command to one device begins with the unicast check (R90). -/
theorem build_eq_requireUnicast_bind (p : Params) (t : Table) {i : Instr} (h : isUnicast i = true) :
    ∃ rest : Unit → Except Failure Built, build p t i = requireUnicast t >>= rest := by
  cases i with
  | write is => exact ⟨_, bind_assoc ..⟩
  | writeAck is => exact ⟨_, bind_assoc ..⟩
  | syncWrite | syncRead | bulkWrite | bulkRead => cases h
  | _ => exact ⟨_, rfl⟩

/-- Settles O42: the fresh table is the placeholder's, whose ID the unicast check refuses before any operand. -/
theorem unattachedTableRejectsUnicast : Obligations.UnattachedTableRejectsUnicast := by
  intro p i hp hi
  have hinv := blockInv_resetWith hp
  have hr : Ready (State.resetWith p) := ⟨nofun, nofun⟩
  obtain ⟨hid, -⟩ : regByte (State.resetWith p).table 1#8 = 255#8 ∧ _ := regByte_scratchTable p
  obtain ⟨rest, hb⟩ := build_eq_requireUnicast_bind (State.resetWith p).params (State.resetWith p).table hi
  rw [exec_eq_transact, hb, transact_requireUnicast hr hinv.table, if_pos hid]
  rfl

/-! ## The baud-rate change (R160) -/

/-- However the answer to a pure acknowledgment's read ends, it is only reported in RESULT and PHASE: its failures are errors,
which leave FAULT (R131, R153). -/
theorem endsWith_acknowledged (frame : List Byte) (n : Nat) (s : State) :
    ∃ r ph, endsWith frame n acknowledged s = { afterRead frame n s with result := r, phase := ph } := by
  simp only [endsWith]
  split
  · exact ⟨_, _, rfl⟩
  · split <;> exact ⟨_, _, rfl⟩

/-- EEPROM_WRITE of an attached device sends its frame and reads, however its acknowledgment ends (R114). -/
theorem exec_eepromWrite_attached {s : State} (hs : BlockInv s) (hr : Ready s) (hid : regByte s.table 1#8 ≠ 255#8) :
    ∃ r ph, exec .eepromWrite s =
      .next { afterRead (frameFor s.params s.table .eepromWrite []) 10 s with result := r, phase := ph } := by
  obtain ⟨r, ph, hend⟩ := endsWith_acknowledged (frameFor s.params s.table .eepromWrite []) 10 s
  refine ⟨r, ph, ?_⟩
  rw [acknowledgedMaintenance s .eepromWrite .eepromWrite hs hr (by simp), if_neg hid, hend]

theorem execOps_command {s t : State} {i : Instr} (h : exec i s = .next t) (rest : List HostOp) :
    execOps (.command i :: rest) s = execOps rest t :=
  execOps_cons (op := .command i) h rest

theorem blockInv_of_exec {s t : State} (hs : BlockInv s) {i : Instr} (h : exec i s = .next t) : BlockInv t :=
  (performed_of_execOp (op := .command i) h).blockInv hs

/-- The baud register is none of the header registers (R5). -/
theorem baudIndex_ne {p : Params} (hp : p.Valid) {k : Byte} (hk : k.toNat < 6) : p.baudIndex ≠ k := by
  obtain ⟨-, -, -, -, -, ⟨hlow, -⟩, -⟩ := hp
  rintro rfl
  omega

/-- The baud register may be written (R5, R67). -/
theorem writeProblem_baudIndex {p : Params} (hp : p.Valid) : writeProblem p p.baudIndex = none := by
  have hfree : ¬ (p.baudIndex = 0#8 ∨ p.baudIndex = 2#8) := by
    simp [baudIndex_ne hp]
  obtain ⟨-, -, -, -, -, ⟨-, hdef⟩, -⟩ := hp
  rw [writeProblem, if_neg (Nat.not_le.mpr hdef), if_neg hfree]

theorem regWidth_le (p : Params) (i : Byte) : regWidth p i ≤ 4 := by
  unfold regWidth
  split
  · next e _ => cases e <;> decide
  · omega

/-- A register that is not the device ID's leaves the header's ID alone (R47). -/
theorem regByte_one_writeReg {t : Table} {i : Byte} (v : Pattern) (h : i ≠ 1#8) :
    regByte (writeReg t i v) 1#8 = regByte t 1#8 := by
  rw [regByte, regNat, readReg_writeReg_other v h.symm]
  rfl

/-- A WRITE of one register that may be written and holds a value (R93). -/
theorem exec_write_one {s : State} (hs : BlockInv s) (hr : Ready s) (hid : regByte s.table 1#8 ≠ 255#8) {i : Byte}
    {v : Pattern} (hi : writeProblem s.params i = none) (hv : readReg s.table i = some v) :
    exec (.write [i]) s =
      .next (sentOnly (frameFor s.params s.table .write (i :: le (regWidth s.params i) v.toNat)) s) := by
  have hw := regWidth_le s.params i
  have hlen : pairsLen s.params [i] = 1 + regWidth s.params i := by simp [pairsLen]
  have hfits : ¬ 255 < 10 + pairsLen s.params [i] := by omega
  have hpairs : pairsOf s.params s.table [i] = i :: le (regWidth s.params i) v.toNat := by
    simp [pairsOf, regNat, hv]
  rw [exec, execWrite, buildWrite, transact_writePayload hr hs.table, writeChecked, if_neg hid, if_neg (by simp)]
  simp [hi, hv, hfits, hpairs, runBuilt_none]

/-- Settles O55: no operation of the call but the SET changes T, and none before the last changes the line rate. -/
theorem baudChangeOrder : Obligations.BaudChangeOrder := by
  intro s v b hs hr hid hb hv
  have hi := writeProblem_baudIndex hs.params
  have hset := execOp_set_ok hr hi hv
  have hs1 := (performed_of_execOp hset).blockInv hs
  have hr1 : Ready (afterSet s.params.baudIndex v s) := hr
  have hid1 : regByte (afterSet s.params.baudIndex v s).table 1#8 ≠ 255#8 := by
    rwa [afterSet, regByte_one_writeReg v (baudIndex_ne hs.params (by decide))]
  have hvalue : readReg (afterSet s.params.baudIndex v s).table s.params.baudIndex = some v :=
    readReg_writeReg_same v (hs.table.1 ▸ lt_regCount_of_writeProblem hi)
  have hwrite := exec_write_one hs1 hr1 hid1 hi hvalue
  have hs2 := blockInv_of_exec hs1 hwrite
  have hr2 := (ended_of_exec hr1 hwrite).ready
  obtain ⟨r, ph, hpersist⟩ := exec_eepromWrite_attached hs2 hr2 hid1
  have hs3 := blockInv_of_exec hs2 hpersist
  have hr3 := (ended_of_exec hr2 hpersist).ready
  have hreboot := (unacknowledgedMaintenance _ .reboot .reboot hs3 hr3 (by simp)).trans (congrArg _ (if_neg hid1))
  obtain ⟨-, -, hrate, -⟩ := hostInputsTakeEffect
  refine ⟨_, answer 10 s, (execOps_cons hset _).trans <| (execOps_command hwrite _).trans <|
    (execOps_command hpersist _).trans <| (execOps_command hreboot _).trans <|
    execOps_cons (hrate _ b hb) [], rfl, rfl, ?_⟩
  simp [sentOnly, afterRead, afterSet, writeReg, answer, nextAnswer]

end Sys2Proof.Proofs
